-- ==== Sys2Proof/Word.lean ====
section
/-! DEFINITION. The widths of the machine (00_scope R5, R7): bytes, 32-bit Words and 28-bit payloads. -/

namespace Sys2Proof

/-- A byte of the input buffer (10_state R21). -/
abbrev Byte := BitVec 8

/-- A Word: 32 bits, bit 0 the least significant (00_scope R7). -/
abbrev Word := BitVec 32

/-- `W[31:4]`, the 28 bits above the function code (30_encoding R82). -/
abbrev Payload := BitVec 28

/-- `W[31:5]`, the 27 bits above the display flag (30_encoding R83, R84). -/
abbrev Field27 := BitVec 27

/-- A function code `W[3:0]` (30_encoding R81). -/
abbrev FCode := BitVec 4

end Sys2Proof
end

