-- ==== Sys2Proof/Config.lean ====
section
/-! DEFINITION. The configuration of a run: the character table `CHARSET` and the function-code table `FTABLE` as
plain data (00_scope R5, 10_state R29). Both are parameters the source leaves open (92_eei_decisions D4, D5); what the
source does fix of `FTABLE` (30_encoding R86) is fixed by these types. -/

namespace Sys2Proof

/-- The eight colours a mapped function code can have (10_state R31, 30_encoding R86). -/
inductive Hue where
  | yellow | red | green | cyan | white | magenta | silver | blue
deriving DecidableEq, Repr

/-- `Colour` (10_state R31): the eight, `UNK` (spelled "???") and the continuation marker `CONT`. -/
inductive Colour where
  | hue (h : Hue)
  | unk
  | cont
deriving DecidableEq, Repr

/-- The case flag of a row of `FTABLE` (41_text R157). -/
inductive CaseFlag where
  | none | cap | upper
deriving DecidableEq, Repr

/-- The category of a mapped row (30_encoding R86); an unmapped row is `FRow.unknown`. -/
inductive Category where
  | text | continuation | shortNumber | longNumber
deriving DecidableEq, Repr

/-- `FTABLE(F)`: `UNKNOWN`, or a colour, a category and a case flag (00_scope R5). -/
inductive FRow where
  | unknown
  | mapped (colour : Colour) (category : Category) (caseFlag : CaseFlag)
deriving DecidableEq, Repr

/-- What the source allows in a row it does not settle (30_encoding R86, last paragraph): no mapping, or text without
a case flag, or a number, in one of the eight colours. Code 0 alone is a continuation, and only 0xA and 0xB have a case flag. -/
inductive OpenRow where
  | unknown
  | text (h : Hue)
  | short (h : Hue)
  | long (h : Hue)
deriving DecidableEq, Repr

/-- The cells of `FTABLE` that the source leaves open (92_eei_decisions D4): nine rows and two colours. -/
structure FTable where
  row1 : OpenRow
  row3 : OpenRow
  row4 : OpenRow
  row5 : OpenRow
  row6 : OpenRow
  row7 : OpenRow
  colourA : Hue
  colourB : Hue
  rowD : OpenRow
  rowE : OpenRow
  rowF : OpenRow
deriving DecidableEq, Repr

/-- `CHARSET`: a partial map from character codes to characters, as pairs (30_encoding R90). -/
structure CharSet where
  entries : List (Nat × Char)
deriving DecidableEq, Repr

/-- The two tables, fixed for a run (10_state R29). -/
structure Config where
  charset : CharSet
  ftable : FTable
deriving DecidableEq, Repr

end Sys2Proof
end

