-- ==== Sys2Proof/Syntax.lean ====
section
/-! DEFINITION. The sixteen instructions, one constructor for each row of spec/opcode_table.json, with the fields of
its word above the function code (30_encoding R82 to R85). -/

namespace Sys2Proof

/-- One instruction: the first word of a logical unit. Format T carries the payload `W[31:4]`; format S the number
field `W[31:5]` and the flag `W[4]`; format L the ignored bits `W[31:5]` and the flag `W[4]`; format U the ignored bits
`W[31:4]`. The second word of format L is not a field here: whether one exists depends on the cursor, and the meaning
takes it through the Word Reader, as 42_number R196 writes it. The formats are those of the opcode table; where an open
row of `FTABLE` gives a code another category, its meaning reads the same word by that category's format. -/
inductive Instr where
  | cont0 (p : Payload)
  | text1 (p : Payload)
  | lnum2 (ign : Field27) (h : Bool)
  | text3 (p : Payload)
  | text4 (p : Payload)
  | lnum5 (ign : Field27) (h : Bool)
  | snum6 (m : Field27) (h : Bool)
  | text7 (p : Payload)
  | snum8 (m : Field27) (h : Bool)
  | text9 (p : Payload)
  | textcA (p : Payload)
  | textuB (p : Payload)
  | textC (p : Payload)
  | snumD (m : Field27) (h : Bool)
  | textE (p : Payload)
  | unkF (ign : Payload)
deriving DecidableEq, Repr

end Sys2Proof
end

