-- ==== Sys2Proof/WellFormed.lean ====
section
/-! DEFINITION. What is well formed: every instruction (30_encoding R94), and a character table as
92_eei_decisions (the table of OPEN parameters) constrains it. -/

namespace Sys2Proof

/-- The stated domain of the Charset Table: 0 to 7, 16 to 23, 96 to 127 (00_scope R5, 30_encoding R88). -/
def inCharDomain (code : Nat) : Bool :=
  decide (code < 8) || (decide (16 ≤ code) && decide (code < 24)) || (decide (96 ≤ code) && decide (code < 128))

/-- Every 32-bit value is a valid first word (30_encoding R94), so every instruction is well formed: its fields have
the widths of the word by their types, and the source reserves no value of any field (R92). -/
def Instr.wf : Instr → Bool
  | .cont0 _ | .text1 _ | .text3 _ | .text4 _ | .text7 _ | .text9 _ => true
  | .textcA _ | .textuB _ | .textC _ | .textE _ => true
  | .lnum2 _ _ | .lnum5 _ _ => true
  | .snum6 _ _ | .snum8 _ _ | .snumD _ _ => true
  | .unkF _ => true

namespace CharSet

/-- The codes are in the stated domain. -/
def domainOk (cs : CharSet) : Bool :=
  cs.entries.all fun e => inCharDomain e.1

/-- The codes rise strictly from `lo`: no code has two characters. -/
def risingFrom : Nat → List (Nat × Char) → Bool
  | _, [] => true
  | lo, e :: es => decide (lo ≤ e.1) && risingFrom (e.1 + 1) es

/-- Code 0 is the space (30_encoding R90 b). -/
def spaceOk (cs : CharSet) : Bool :=
  decide (cs.entries.lookup 0 = some ' ')

/-- Codes 1 to 7 are the letters r, t, o, e, a, n, i in some order (30_encoding R90 c). -/
def lettersOk (cs : CharSet) : Bool :=
  ['r', 't', 'o', 'e', 'a', 'n', 'i'].all fun ch =>
    [1, 2, 3, 4, 5, 6, 7].any fun code => decide (cs.entries.lookup code = some ch)

/-- The constraints on the parameter `CHARSET` (92_eei_decisions, parameters left OPEN). -/
def wf (cs : CharSet) : Bool :=
  cs.domainOk && risingFrom 0 cs.entries && cs.spaceOk && cs.lettersOk

/-- Defined on the whole stated domain, as the reference table is (41_text R171). -/
def full (cs : CharSet) : Bool :=
  (List.range 128).all fun code => !inCharDomain code || (cs.entries.lookup code).isSome

end CharSet

/-- A configuration the spec admits; `FTABLE`'s constraints hold by its type. -/
def Config.wf (c : Config) : Bool :=
  c.charset.wf

end Sys2Proof
end

