-- ==== Sys2Proof/Decode.lean ====
section
/-! DEFINITION. Bytes to words to instructions, total on any bytes, and the encoder (20_memory R52,
30_encoding R80 to R85). -/

namespace Sys2Proof

/-! ## Words and their bytes -/

/-- The little-endian value of four bytes, the first stored byte least significant (20_memory R52). -/
def wordOfBytes (b0 b1 b2 b3 : Byte) : Word :=
  BitVec.ofNat 32 (b0.toNat + 256 * b1.toNat + 65536 * b2.toNat + 16777216 * b3.toNat)

/-- The first `n` bytes of a number in address order, least significant first (20_memory R52). -/
def leBytes : Nat → Nat → List Byte
  | 0, _ => []
  | n + 1, v => BitVec.ofNat 8 v :: leBytes n (v / 256)

/-! ## Fields of a word -/

/-- The function code `W[3:0]` (30_encoding R81, 40_fetch_dispatch R122). -/
def fcode (w : Word) : FCode := w.extractLsb' 0 4

/-- The payload `W[31:4]` (30_encoding R82). -/
def payload (w : Word) : Payload := w.extractLsb' 4 28

/-- The display flag `H = W[4]` (42_number R191, 90_conflicts C1). -/
def hexFlag (w : Word) : Bool := w.getLsbD 4

/-- The 27 bits `W[31:5]`: a short number's field, a long number's ignored bits (42_number R192, 30_encoding R84). -/
def field27 (w : Word) : Field27 := w.extractLsb' 5 27

/-! ## Decoder -/

/-- Why bytes are no instruction. -/
inductive DecodeError where
  /-- Fewer than four bytes are left: not a whole Word (00_scope R5). The only rejection, since every 32-bit value
  is a valid first word (30_encoding R94). -/
  | truncated
deriving DecidableEq, Repr

/-- The instruction of a first word; the function code alone selects it (30_encoding R81). The last arm is the one
code left, 15. -/
def decodeWord (w : Word) : Instr :=
  match (fcode w).toNat with
  | 0 => .cont0 (payload w)
  | 1 => .text1 (payload w)
  | 2 => .lnum2 (field27 w) (hexFlag w)
  | 3 => .text3 (payload w)
  | 4 => .text4 (payload w)
  | 5 => .lnum5 (field27 w) (hexFlag w)
  | 6 => .snum6 (field27 w) (hexFlag w)
  | 7 => .text7 (payload w)
  | 8 => .snum8 (field27 w) (hexFlag w)
  | 9 => .text9 (payload w)
  | 10 => .textcA (payload w)
  | 11 => .textuB (payload w)
  | 12 => .textC (payload w)
  | 13 => .snumD (field27 w) (hexFlag w)
  | 14 => .textE (payload w)
  | _ => .unkF (payload w)

/-- The instruction at the head of a byte sequence and the bytes after its word. -/
def decode : List Byte → Except DecodeError (Instr × List Byte)
  | b0 :: b1 :: b2 :: b3 :: rest => .ok (decodeWord (wordOfBytes b0 b1 b2 b3), rest)
  | _ => .error .truncated

/-! ## Encoder -/

/-- The word of formats T and U: payload above function code (30_encoding R82, R85). -/
def wordTU (p : Payload) (f : FCode) : Word := BitVec.ofNat 32 (16 * p.toNat + f.toNat)

/-- The word of formats S and L: 27 bits, the display flag, the function code (30_encoding R83, R84). -/
def wordSL (m : Field27) (h : Bool) (f : FCode) : Word :=
  BitVec.ofNat 32 (32 * m.toNat + 16 * h.toNat + f.toNat)

/-- The first word of an instruction, from the encodings of spec/opcode_table.json. -/
def encodeWord : Instr → Word
  | .cont0 p => wordTU p 0
  | .text1 p => wordTU p 1
  | .lnum2 x h => wordSL x h 2
  | .text3 p => wordTU p 3
  | .text4 p => wordTU p 4
  | .lnum5 x h => wordSL x h 5
  | .snum6 m h => wordSL m h 6
  | .text7 p => wordTU p 7
  | .snum8 m h => wordSL m h 8
  | .text9 p => wordTU p 9
  | .textcA p => wordTU p 10
  | .textuB p => wordTU p 11
  | .textC p => wordTU p 12
  | .snumD m h => wordSL m h 13
  | .textE p => wordTU p 14
  | .unkF x => wordTU x 15

/-- The four bytes of an instruction's first word as the buffer stores them. -/
def encode (i : Instr) : List Byte := leBytes 4 (encodeWord i).toNat

/-! ## The host's view -/

/-- The instruction the decoder reads from an opcode-table word: its bits laid out in the buffer's byte order, first
word first, with zeros above `nbits`. -/
def decodeTableWord (nbits w : Nat) : Option Instr :=
  match decode (leBytes 8 (w % 2 ^ nbits)) with
  | .ok r => some r.1
  | .error _ => none

end Sys2Proof
end

