-- ==== Sys2Proof/Machine/Tables.lean ====
section
/-! DEFINITION. Looking up the two configuration tables, the rows of `FTABLE` that the source settles, and the
reference values of both tables (30_encoding R86, R87, R90). -/

namespace Sys2Proof

/-- `CHARSET(c)`: the character of a code, or none where it is undefined (00_scope R8). -/
def CharSet.char? (cs : CharSet) (code : Nat) : Option Char := cs.entries.lookup code

/-- An open row as a row of `FTABLE`; it has no case flag (30_encoding R86). -/
def OpenRow.toRow : OpenRow → FRow
  | .unknown => .unknown
  | .text h => .mapped (.hue h) .text .none
  | .short h => .mapped (.hue h) .shortNumber .none
  | .long h => .mapped (.hue h) .longNumber .none

/-- `FTABLE(F)`: the rows and cells R86 settles, and the open ones from the configuration. The last arm is code 15. -/
def FTable.row (t : FTable) (f : FCode) : FRow :=
  match f.toNat with
  | 0 => .mapped .cont .continuation .none
  | 1 => t.row1.toRow
  | 2 => .mapped (.hue .yellow) .longNumber .none
  | 3 => t.row3.toRow
  | 4 => t.row4.toRow
  | 5 => t.row5.toRow
  | 6 => t.row6.toRow
  | 7 => t.row7.toRow
  | 8 => .mapped (.hue .yellow) .shortNumber .none
  | 9 => .mapped (.hue .white) .text .none
  | 10 => .mapped (.hue t.colourA) .text .cap
  | 11 => .mapped (.hue t.colourB) .text .upper
  | 12 => .mapped (.hue .magenta) .text .none
  | 13 => t.rowD.toRow
  | 14 => t.rowE.toRow
  | _ => t.rowF.toRow

/-- The reference rows (30_encoding R87). PRESUMED by the spec itself, from general knowledge: log 4. -/
def referenceFTable : FTable where
  row1 := .text .yellow
  row3 := .text .red
  row4 := .text .green
  row5 := .long .green
  row6 := .short .green
  row7 := .text .cyan
  colourA := .white
  colourB := .white
  rowD := .short .silver
  rowE := .text .blue
  rowF := .unknown

/-- The 4-bit codes of the reference table (30_encoding R90). -/
def referenceChars4 : List (Nat × Char) :=
  [(0, ' '), (1, 'r'), (2, 't'), (3, 'o'), (4, 'e'), (5, 'a'), (6, 'n'), (7, 'i')]

/-- The 5-bit codes of the reference table (30_encoding R90). -/
def referenceChars5 : List (Nat × Char) :=
  [(16, 's'), (17, 'm'), (18, 'c'), (19, 'y'), (20, 'l'), (21, 'g'), (22, 'f'), (23, 'w')]

/-- The 7-bit codes 96 to 111 of the reference table (30_encoding R90). -/
def referenceChars7a : List (Nat × Char) :=
  [(96, 'd'), (97, 'v'), (98, 'p'), (99, 'b'), (100, 'h'), (101, 'x'), (102, 'u'), (103, 'q'),
   (104, '0'), (105, '1'), (106, '2'), (107, '3'), (108, '4'), (109, '5'), (110, '6'), (111, '7')]

/-- The 7-bit codes 112 to 127 of the reference table (30_encoding R90). -/
def referenceChars7b : List (Nat × Char) :=
  [(112, '8'), (113, '9'), (114, 'j'), (115, '-'), (116, 'k'), (117, '.'), (118, 'z'), (119, '/'),
   (120, ';'), (121, ':'), (122, '!'), (123, '+'), (124, '@'), (125, '*'), (126, ','), (127, '?')]

/-- The reference `CHARSET` (30_encoding R90). PRESUMED by the spec itself, from general knowledge: log 3. -/
def referenceCharSet : CharSet :=
  ⟨referenceChars4 ++ referenceChars5 ++ referenceChars7a ++ referenceChars7b⟩

/-- The configuration at reset (10_state R29, column "reset value"). -/
def referenceConfig : Config := ⟨referenceCharSet, referenceFTable⟩

end Sys2Proof
end

