-- ==== Sys2Proof/Machine/State.lean ====
section
/-! DEFINITION. Everything the spec gives the machine (10_state R20, R29), as plain data, the reasons a step can stop,
and the state at reset. -/

namespace Sys2Proof.Machine

/-- A token: a colour and a character string (10_state R31, R32; 00_scope R9). -/
structure Token where
  colour : Colour
  value : List Char
deriving DecidableEq, Repr

/-- The causes of 60_exceptions R271. -/
inductive Cause where
  | badCharCode
  | badNumberBits
  | unknownFcode
  | badLength
deriving DecidableEq, Repr

/-- A hard decode failure with the information R271 records: a character code outside `CHARSET`, with its payload bit
position and the word's Block offset (R272); or a number field that is no number, never raised (R273, 42_number R198). -/
inductive HardFailure where
  | badCharCode (code pos offset : Nat)
  | badNumberBits (offset : Nat)
deriving DecidableEq, Repr

/-- A Decode Result: tokens or an error, never both (43_merge_block R242). -/
inductive DecodeResult where
  | tokens (ts : List Token)
  | error (e : HardFailure)
deriving DecidableEq, Repr

/-- `GST` (10_state R28). -/
inductive RunStatus where
  | idle | busy | finished | rejected
deriving DecidableEq, Repr

/-- `ST` (10_state R25). -/
inductive BlockStatus where
  | run | done | failed
deriving DecidableEq, Repr

/-- `BUF`: its length `LEN`, and its bytes as (address, byte) cells at strictly rising addresses below `LEN`, none of
them zero; an unlisted address below `LEN` holds the byte zero, and no address at or above `LEN` exists (10_state R21, 20_memory R50). -/
structure Buf where
  len : Nat
  cells : List Host.Cell
deriving DecidableEq, Repr

/-- The architectural state (10_state R20) and the configuration (R29). `wt = none` is `WT.valid = 0` (R23); `err`
holds a value exactly while one is meaningful (R26; 93_implementation_defined U13). -/
structure State where
  cfg : Config
  start : Nat
  buf : Buf
  gst : RunStatus
  blk : Nat
  cur : Nat
  wt : Option Token
  outbuf : List Token
  warn : Nat
  st : BlockStatus
  err : Option HardFailure
  results : List (Nat × DecodeResult)
deriving DecidableEq, Repr

/-- Why the machine stops. None of these is raised from a state that a run reaches while it is BUSY. -/
inductive Fault where
  /-- Raised by `step`'s fetch and by the second-word read of a long number, at an address at or above `LEN`, which
  does not exist (20_memory R50). Safe: the machine stops. -/
  | outsideBuffer
  /-- Raised by `step` when `GST = BUSY` but `BLK ≥ k` or `ST ≠ RUN`, where no step is defined (43_merge_block R236).
  Safe: the machine stops. -/
  | notInRun
  /-- Raised by `step` when `GST = FINISHED`: the run is over (00_scope R12, 43_merge_block R239 "stop"). Safe. -/
  | runFinished
  /-- Raised by `step` when `GST = REJECTED`: the run is over (00_scope R12, 43_merge_block R239 "stop"). Safe. -/
  | runRejected
deriving DecidableEq, Repr

/-- Instructions without a meaning. -/
inductive Refusal where
  /-- Raised by an arm of `exec` for an instruction that has no meaning yet. No arm raises it. Safe. -/
  | notModelled (mnemonic : String)
deriving DecidableEq, Repr

namespace State

/-- The machine before a run: `GST = IDLE` (70_reset R311), the reference configuration (10_state R29), and no value
held in `WT` and `ERR` (R35, D19). The other values are the model's: log 1. -/
def reset : State where
  cfg := referenceConfig
  start := 0
  buf := ⟨0, []⟩
  gst := .idle
  blk := 0
  cur := 0
  wt := none
  outbuf := []
  warn := 0
  st := .run
  err := none
  results := []

/-! One setter for each register. -/

def setStart (s : State) (v : Nat) : State := { s with start := v }
def setBuf (s : State) (v : Buf) : State := { s with buf := v }
def setGst (s : State) (v : RunStatus) : State := { s with gst := v }
def setBlk (s : State) (v : Nat) : State := { s with blk := v }
def setCur (s : State) (v : Nat) : State := { s with cur := v }
def setWt (s : State) (v : Option Token) : State := { s with wt := v }
def setOutbuf (s : State) (v : List Token) : State := { s with outbuf := v }
def setWarn (s : State) (v : Nat) : State := { s with warn := v }
def setSt (s : State) (v : BlockStatus) : State := { s with st := v }
def setErr (s : State) (v : Option HardFailure) : State := { s with err := v }
def setResults (s : State) (v : List (Nat × DecodeResult)) : State := { s with results := v }
def setCfg (s : State) (v : Config) : State := { s with cfg := v }

end State

end Sys2Proof.Machine
end

