-- ==== Sys2Proof/Machine/Ops.lean ====
section
/-! DEFINITION. The named operations on the input buffer and the registers: the Word Reader, the Continuation Merger,
Block reset, end of Block, a hard decode failure, the start of a run, and what the caller places before a run. -/

namespace Sys2Proof.Machine

/-! ## The input buffer -/

/-- The cells rise strictly from `lo`, lie below `len`, and none is zero. -/
def cellsWf : Nat → Nat → List Host.Cell → Bool
  | _, _, [] => true
  | lo, len, c :: cs => decide (lo ≤ c.1) && decide (c.1 < len) && decide (c.2 ≠ 0) && cellsWf (c.1 + 1) len cs

/-- The canonical form: equal buffers are equal data. -/
def Buf.wf (b : Buf) : Bool := cellsWf 0 b.len b.cells

/-- What an unlisted address of the buffer holds. -/
def unlistedByte : Byte := 0

/-- `BUF[a]`, or none where `a ≥ LEN`, an address that does not exist (20_memory R50). -/
def Buf.get? (b : Buf) (a : Nat) : Option Byte :=
  if a < b.len then some ((b.cells.lookup a).getD unlistedByte) else none

/-- Cells with the byte at `a` replaced, in canonical form. -/
def setCell : List Host.Cell → Nat → Byte → List Host.Cell
  | [], a, v => if v = unlistedByte then [] else [(a, v)]
  | c :: cs, a, v =>
    if a < c.1 then (if v = unlistedByte then c :: cs else (a, v) :: c :: cs)
    else if a = c.1 then (if v = unlistedByte then cs else (a, v) :: cs)
    else c :: setCell cs a v

/-- The buffer with one byte replaced by the caller; an address that does not exist is left alone. CFBWD itself never
writes (20_memory R57): only what stands for the caller calls this. -/
def Buf.set (b : Buf) (a : Nat) (v : Byte) : Buf :=
  if a < b.len then { b with cells := setCell b.cells a v } else b

/-- The caller's bytes at consecutive addresses. -/
def Buf.setBytes (b : Buf) : Nat → List Byte → Buf
  | _, [] => b
  | a, v :: vs => (b.set a v).setBytes (a + 1) vs

/-- The cells of a byte sequence from address `a` on. -/
def cellsOf : Nat → List Byte → List Host.Cell
  | _, [] => []
  | a, v :: vs => if v = unlistedByte then cellsOf (a + 1) vs else (a, v) :: cellsOf (a + 1) vs

/-- The buffer that holds exactly these bytes (10_state R21). -/
def Buf.ofBytes (bs : List Byte) : Buf := ⟨bs.length, cellsOf 0 bs⟩

/-- The number of whole Blocks, `k` where the length is accepted (00_scope R5). -/
def Buf.blocks (b : Buf) : Nat := b.len / 1024

/-- `MemRead(a, 4)` (20_memory R52), or none where a byte of it does not exist. -/
def Buf.word? (b : Buf) (a : Nat) : Option Word :=
  match b.get? a, b.get? (a + 1), b.get? (a + 2), b.get? (a + 3) with
  | some b0, some b1, some b2, some b3 => some (wordOfBytes b0 b1 b2 b3)
  | _, _, _, _ => none

/-! ## The Word Reader -/

/-- `HasNext(c)` (40_fetch_dispatch R121). -/
def hasNext (c : Nat) : Bool := decide (c < 1024)

/-- The byte address of the next word, `1024·BLK + CUR` (20_memory R51). -/
def fetchAddr (s : State) : Nat := 1024 * s.blk + s.cur

/-- `NextWord(BLK, CUR)`: the word at the cursor and the state with the cursor past it (40_fetch_dispatch R120). -/
def nextWord (s : State) : Option (Word × State) :=
  (s.buf.word? (fetchAddr s)).map fun w => (w, s.setCur (s.cur + 4))

/-! ## The Continuation Merger -/

/-- The merge step for a raw token (43_merge_block R231). -/
def merge (t : Token) (s : State) : State :=
  match s.wt with
  | none => s.setWt (some t)
  | some w =>
    if t.colour = .cont then s.setWt (some ⟨w.colour, w.value ++ t.value⟩)
    else (s.setOutbuf (s.outbuf ++ [w])).setWt (some t)

/-- The flush at the end of a Block (43_merge_block R232); with no working token it emits nothing (R233). -/
def flush (s : State) : State :=
  match s.wt with
  | none => s
  | some w => s.setOutbuf (s.outbuf ++ [w])

/-! ## Blocks and runs -/

/-- Block reset (70_reset_and_hazards R310). `ERR` becomes don't-care there; the model holds no value in it (log 2). -/
def blockReset (s : State) : State :=
  (((((s.setCur 0).setWt none).setOutbuf []).setWarn 0).setSt .run).setErr none

/-- From `BLK`: the reset of that Block, or the end of the run if there is none (43_merge_block R239). -/
def enterBlock (s : State) : State :=
  if s.blk < s.buf.blocks then blockReset s else s.setGst .finished

/-- `NextBlock()` (43_merge_block R237, R239): `BLK <- BLK + 1`, then the next Block's reset or the end of the run. -/
def nextBlock (s : State) : State := enterBlock (s.setBlk (s.blk + 1))

/-- One entry appended to `RESULTS`, numbered `START + BLK` (10_state R28, 43_merge_block R243). -/
def commit (r : DecodeResult) (s : State) : State :=
  s.setResults (s.results ++ [(s.start + s.blk, r)])

/-- Successful end of a Block (43_merge_block R237). -/
def endBlock (s : State) : State :=
  let s1 := flush s
  nextBlock ((commit (.tokens s1.outbuf) s1).setSt .done)

/-- TAKING THE EXCEPTION: a hard decode failure (43_merge_block R238, 60_exceptions R278). Nothing is saved for a
return, and there is none (R279): `ERR` and `ST` are written, one `Error` entry is committed, and control goes to the
next Block's reset or to the end of the run. -/
def failBlock (e : HardFailure) (s : State) : State :=
  nextBlock (commit (.error e) ((s.setErr (some e)).setSt .failed))

/-- The start of a run (43_merge_block R239, 70_reset_and_hazards R311): a length that is no multiple of 1024 is
rejected (60_exceptions R275); else the first Block is reset, or the run is over at once if there is none. DESIGN CHOICE:
a rejected or empty start leaves the Block's registers as they were, where the spec leaves them unspecified (log 21). -/
def startRun (s : State) : State :=
  let s1 := (s.setResults []).setBlk 0
  if s.buf.len % 1024 = 0 then enterBlock (s1.setGst .busy) else s1.setGst .rejected

/-! ## The caller -/

/-- What the caller provides before a run (70_reset_and_hazards R312); no step does this. DESIGN CHOICE: the other registers,
unspecified before a run (R311), keep what an earlier run left in them (log 21). -/
def load (bytes : List Byte) (start : Nat) (cfg : Config) (s : State) : State :=
  (((s.setBuf (Buf.ofBytes bytes)).setStart start).setCfg cfg).setGst .idle

/-- The cursor at which the caller's word is placed: the present one where a word can be read there, else 0. -/
def placeCur (s : State) : Nat := if s.cur % 4 = 0 ∧ s.cur < 1024 then s.cur else 0

/-- The buffer made long enough to hold Block `BLK`. -/
def placeRoom (s : State) : Buf := { s.buf with len := max s.buf.len (1024 * (s.blk + 1)) }

/-- A run in progress whose next word is the given one: the buffer reaches past Block `BLK`, the word (and, where the
Block has room, the word after it) is stored at the cursor, and the machine is BUSY in a running Block (log 5). -/
def placeFetchWord (s : State) (nbits w : Nat) : State :=
  let c := placeCur s
  let n := if c + 8 ≤ 1024 then 8 else 4
  let b := (placeRoom s).setBytes (1024 * s.blk + c) (leBytes n (w % 2 ^ nbits))
  (((s.setBuf b).setCur c).setGst .busy).setSt .run

end Sys2Proof.Machine
end

