-- ==== Sys2Proof/Machine/Flags.lean ====
section
/-! DEFINITION. CFBWD has no condition codes (10_state R33). Its only sticky bits are `ST`, written in Ops.lean, and
the warning count; here stand the warning and the cause codes. -/

namespace Sys2Proof.Machine

/-- The cause codes (60_exceptions R271). -/
def Cause.code : Cause → Nat
  | .badCharCode => 1
  | .badNumberBits => 2
  | .unknownFcode => 3
  | .badLength => 4

/-- The cause of a hard decode failure (60_exceptions R271). -/
def HardFailure.cause : HardFailure → Cause
  | .badCharCode _ _ _ => .badCharCode
  | .badNumberBits _ => .badNumberBits

/-- `warn(UNKNOWN_FCODE, …)`: `WARN <- WARN + 1`, nothing else (60_exceptions R274, 00_scope R8). -/
def warnUnknown (s : State) : State := s.setWarn (s.warn + 1)

end Sys2Proof.Machine
end

