-- ==== Sys2Proof/Machine/Operands.lean ====
section
/-! DEFINITION. What a word's fields stand for: packed characters and their case policy (41_text R150 to R158), and
numbers and their text (42_number R190 to R197). -/

namespace Sys2Proof.Machine

/-! ## The Character Unpacker -/

/-- The bits `p[pos] … p[pos+n−1]` of a payload as an unsigned value, `p[0]` the most significant bit (41_text R150). -/
def payloadBits (p : Payload) (pos n : Nat) : Nat := (p.toNat >>> (28 - pos - n)) % 2 ^ n

/-- The length of a code from its two-bit prefix (41_text R151, 30_encoding R88). -/
def codeLength (pfx : Nat) : Nat :=
  if pfx < 2 then 4 else if pfx = 2 then 5 else 7

/-- A character code read from a payload: where it starts and its value with the padding (41_text R150). -/
structure PackedCode where
  pos : Nat
  code : Nat
deriving DecidableEq, Repr

/-- How many bits the code at `pos` takes: its length, or what is left of the payload (41_text R152). -/
def codeTake (p : Payload) (pos : Nat) : Nat :=
  min (codeLength (payloadBits p pos 2)) (28 - pos)

/-- The value of the code at `pos`, padded with zeros on the right to its length (41_text R152, 30_encoding R89). -/
def codeValue (p : Payload) (pos : Nat) : Nat :=
  payloadBits p pos (codeTake p pos) <<< (codeLength (payloadBits p pos 2) - codeTake p pos)

/-- The codes from `pos` on, while at least two bits remain (41_text R150, R155); `fuel` bounds the loop. -/
def codesFrom (p : Payload) : Nat → Nat → List PackedCode
  | 0, _ => []
  | fuel + 1, pos =>
    if 28 - pos ≥ 2 then ⟨pos, codeValue p pos⟩ :: codesFrom p fuel (pos + codeTake p pos) else []

/-- The packed elements of a text word, in order (41_text R170). Each takes at least two bits, so fourteen are enough. -/
def codesOf (p : Payload) : List PackedCode := codesFrom p 14 0

/-- `Emit(ch)`: nothing for the space (41_text R154). -/
def emitChar (ch : Char) : List Char := if ch = ' ' then [] else [ch]

/-- The characters of the codes, or the failure of the first code that `CHARSET` does not define (41_text R153;
60_exceptions R272, R277). -/
def lookupCodes (cs : CharSet) (offset : Nat) : List PackedCode → Except HardFailure (List Char)
  | [] => .ok []
  | c :: rest =>
    match cs.char? c.code with
    | none => .error (.badCharCode c.code c.pos offset)
    | some ch => (lookupCodes cs offset rest).map (emitChar ch ++ ·)

/-- `Unpack(P)`, for the word at Block offset `offset` (41_text R150). -/
def unpack (cs : CharSet) (offset : Nat) (p : Payload) : Except HardFailure (List Char) :=
  lookupCodes cs offset (codesOf p)

/-! ## Case policy -/

/-- `Upper(ch)`: `a` to `z` become `A` to `Z`, every other character is unchanged (41_text R158). -/
def upper (ch : Char) : Char :=
  if 97 ≤ ch.toNat ∧ ch.toNat ≤ 122 then Char.ofNat (ch.toNat - 32) else ch

/-- `ApplyCase` (41_text R157). -/
def applyCase : CaseFlag → List Char → List Char
  | .none, s => s
  | .cap, [] => []
  | .cap, ch :: rest => upper ch :: rest
  | .upper, s => s.map upper

/-! ## Numbers -/

/-- `tc(v, w)`, the two's-complement value of a `w`-bit pattern (42_number R190). -/
def tc (v w : Nat) : Int :=
  ((v % 2 ^ (w - 1) : Nat) : Int) - (if v.testBit (w - 1) then ((2 ^ (w - 1) : Nat) : Int) else 0)

/-- The character of a digit below 16, lower case (42_number R194). -/
def digitChar (d : Nat) : Char := if d < 10 then Char.ofNat (48 + d) else Char.ofNat (87 + d)

/-- The digits of `n` in base `b` before `acc`; `fuel` bounds the number of digits. -/
def digitsFrom (b : Nat) : Nat → Nat → List Char → List Char
  | 0, _, acc => acc
  | fuel + 1, n, acc =>
    if n < b then digitChar n :: acc else digitsFrom b fuel (n / b) (digitChar (n % b) :: acc)

/-- The digits of `n` in base `b`, no leading zeros, "0" for zero (00_scope R8). A base of two or more gives at most
`log2 n + 1` digits. -/
def digits (b n : Nat) : List Char := digitsFrom b (n.log2 + 1) n []

/-- `dec(n)` (42_number R193). -/
def dec (n : Nat) : List Char := digits 10 n

/-- `hexl(n)` (42_number R194). -/
def hexl (n : Nat) : List Char := digits 16 n

/-- `Render(H, n)` (42_number R193, R194). The text of a negative number with `H = 1` is the spec's own decision D6
(log 9), isolated here. -/
def render (h : Bool) (n : Int) : List Char :=
  match h, n with
  | false, .ofNat k => '#' :: dec k
  | false, .negSucc k => '#' :: '-' :: dec (k + 1)
  | true, .ofNat k => '$' :: hexl k
  | true, .negSucc k => '$' :: '-' :: hexl (k + 1)

/-! ## Raw tokens -/

/-- The sentinel value `"???"` (40_fetch_dispatch R124). -/
def sentinel : List Char := ['?', '?', '?']

/-- The raw token of an UNKNOWN word (40_fetch_dispatch R124). -/
def unknownToken : Token := ⟨.unk, sentinel⟩

/-- The raw token of a text word, or its failure (41_text R159). -/
def textToken (cs : CharSet) (offset : Nat) (col : Colour) (cf : CaseFlag) (p : Payload) : Except HardFailure Token :=
  (unpack cs offset p).map fun str => ⟨col, applyCase cf str⟩

/-- The raw token of a short number (42_number R195). -/
def shortToken (col : Colour) (m : Field27) (h : Bool) : Token := ⟨col, render h (tc m.toNat 27)⟩

/-- The raw token of a long number with second word `w2` (42_number R196). -/
def longToken (col : Colour) (h : Bool) (w2 : Word) : Token := ⟨col, render h (tc w2.toNat 32)⟩

end Sys2Proof.Machine
end

