-- ==== Sys2Proof/Machine/Units.lean ====
section
/-! DEFINITION. The generic operations of the four formats and the dispatch (40_fetch_dispatch R123, R124; 41_text
R159; 42_number R195, R196). Each is entered with the cursor already past the first word, as R123 says, and goes on to the
merge step or the failure, as 43_merge_block R236 does. -/

namespace Sys2Proof.Machine

/-- What a step of the machine answers. -/
abbrev Result := Host.Outcome State Fault Refusal

/-- The end of a unit: its raw token is merged, or its failure is taken (43_merge_block R236). -/
def complete (r : Except HardFailure Token) (s : State) : Result :=
  match r with
  | .ok t => .next (merge t s)
  | .error e => .next (failBlock e s)

/-- `ExecText(col, case, P)` (41_text R159). The failing word's offset is `CUR − 4` (60_exceptions R271). -/
def execText (col : Colour) (cf : CaseFlag) (p : Payload) (s : State) : Result :=
  complete (textToken s.cfg.charset (s.cur - 4) col cf p) s

/-- `ExecShort(col, W)` (42_number R195). -/
def execShort (col : Colour) (m : Field27) (h : Bool) (s : State) : Result :=
  complete (.ok (shortToken col m h)) s

/-- `ExecLong(col, W)` (42_number R196, R197): the second word through the Word Reader if the Block has one, else zero
with the cursor left where it is. -/
def execLong (col : Colour) (h : Bool) (s : State) : Result :=
  if hasNext s.cur then
    match nextWord s with
    | some (w2, s1) => complete (.ok (longToken col h w2)) s1
    | none => .fault .outsideBuffer
  else complete (.ok (longToken col h 0)) s

/-- `ExecUnknown(W)` (40_fetch_dispatch R124). -/
def execUnknown (s : State) : Result :=
  complete (.ok unknownToken) (warnUnknown s)

/-- `Dispatch(W)` on a row of `FTABLE` (40_fetch_dispatch R123). -/
def dispatchRow (r : FRow) (w : Word) (s : State) : Result :=
  match r with
  | .unknown => execUnknown s
  | .mapped col .text cf => execText col cf (payload w) s
  | .mapped col .continuation cf => execText col cf (payload w) s
  | .mapped col .shortNumber _ => execShort col (field27 w) (hexFlag w) s
  | .mapped col .longNumber _ => execLong col (hexFlag w) s

/-- `Dispatch(W)`: the function code alone selects the row (40_fetch_dispatch R123). -/
def dispatch (w : Word) (s : State) : Result :=
  dispatchRow (s.cfg.ftable.row (fcode w)) w s

end Sys2Proof.Machine
end

