-- ==== Sys2Proof/Machine/Number.lean ====
section
/-! DEFINITION. The number instructions (42_number R200 to R204), fixed or open as in Text.lean. -/

namespace Sys2Proof.Machine

/-- LNUM.2: `ExecLong(yellow, W)` (42_number R200); `W[31:5]` is ignored (30_encoding R92). -/
def execLnum2 (_ign : Field27) (h : Bool) (s : State) : Result := execLong (.hue .yellow) h s

/-- LNUM.5: open row; `ExecLong(green, W)` under the reference table (42_number R201). -/
def execLnum5 (ign : Field27) (h : Bool) (s : State) : Result := dispatch (encodeWord (.lnum5 ign h)) s

/-- SNUM.6: open row; `ExecShort(green, W)` under the reference table (42_number R202). -/
def execSnum6 (m : Field27) (h : Bool) (s : State) : Result := dispatch (encodeWord (.snum6 m h)) s

/-- SNUM.8: `ExecShort(yellow, W)` (42_number R203). -/
def execSnum8 (m : Field27) (h : Bool) (s : State) : Result := execShort (.hue .yellow) m h s

/-- SNUM.D: open row; `ExecShort(silver, W)` under the reference table (42_number R204). -/
def execSnumD (m : Field27) (h : Bool) (s : State) : Result := dispatch (encodeWord (.snumD m h)) s

end Sys2Proof.Machine
end

