-- ==== Sys2Proof/Machine/Text.lean ====
section
/-! DEFINITION. The text instructions (41_text R160 to R169). Where the source settles the row of `FTABLE`
(30_encoding R86) the meaning is ExecText with that row; where the row is open (92_eei_decisions D4) the word is
dispatched on the configuration's row, which at reset is the row R87 gives. -/

namespace Sys2Proof.Machine

/-- CONT.0: `ExecText(CONT, none, W[31:4])` (41_text R160). -/
def execCont0 (p : Payload) (s : State) : Result := execText .cont .none p s

/-- TEXT.1: open row; `ExecText(yellow, none, W[31:4])` under the reference table (41_text R161). -/
def execText1 (p : Payload) (s : State) : Result := dispatch (encodeWord (.text1 p)) s

/-- TEXT.3: open row; `ExecText(red, none, W[31:4])` under the reference table (41_text R162). -/
def execText3 (p : Payload) (s : State) : Result := dispatch (encodeWord (.text3 p)) s

/-- TEXT.4: open row; `ExecText(green, none, W[31:4])` under the reference table (41_text R163). -/
def execText4 (p : Payload) (s : State) : Result := dispatch (encodeWord (.text4 p)) s

/-- TEXT.7: open row; `ExecText(cyan, none, W[31:4])` under the reference table (41_text R164). -/
def execText7 (p : Payload) (s : State) : Result := dispatch (encodeWord (.text7 p)) s

/-- TEXT.9: `ExecText(white, none, W[31:4])` (41_text R165). -/
def execText9 (p : Payload) (s : State) : Result := execText (.hue .white) .none p s

/-- TEXTC.A: `ExecText(col, cap, W[31:4])`, the colour from the table, white in the reference table (41_text R166). -/
def execTextcA (p : Payload) (s : State) : Result := execText (.hue s.cfg.ftable.colourA) .cap p s

/-- TEXTU.B: `ExecText(col, upper, W[31:4])`, the colour from the table, white in the reference table (41_text R167). -/
def execTextuB (p : Payload) (s : State) : Result := execText (.hue s.cfg.ftable.colourB) .upper p s

/-- TEXT.C: `ExecText(magenta, none, W[31:4])` (41_text R168); the next word gets no special treatment (90_conflicts C3). -/
def execTextC (p : Payload) (s : State) : Result := execText (.hue .magenta) .none p s

/-- TEXT.E: open row; `ExecText(blue, none, W[31:4])` under the reference table (41_text R169). -/
def execTextE (p : Payload) (s : State) : Result := dispatch (encodeWord (.textE p)) s

end Sys2Proof.Machine
end

