-- ==== Sys2Proof/Machine/Unknown.lean ====
section
/-! DEFINITION. The unknown word (40_fetch_dispatch R125). -/

namespace Sys2Proof.Machine

/-- UNK.F: open row; `ExecUnknown(W)` under the reference table, whatever `W[31:4]` (40_fetch_dispatch R125). -/
def execUnkF (ign : Payload) (s : State) : Result := dispatch (encodeWord (.unkF ign)) s

end Sys2Proof.Machine
end

