-- ==== Sys2Proof/Machine/Dispatch.lean ====
section
/-! DEFINITION. One arm for each instruction: the unit's dispatch, then the merge step or the failure
(43_merge_block R236), entered with the cursor already past the first word (40_fetch_dispatch R123). -/

namespace Sys2Proof.Machine

def exec (i : Instr) (s : State) : Host.Outcome State Fault Refusal :=
  match i with
  | .cont0 p => Sys2Proof.Machine.execCont0 p s
  | .text1 p => Sys2Proof.Machine.execText1 p s
  | .lnum2 x h => Sys2Proof.Machine.execLnum2 x h s
  | .text3 p => Sys2Proof.Machine.execText3 p s
  | .text4 p => Sys2Proof.Machine.execText4 p s
  | .lnum5 x h => Sys2Proof.Machine.execLnum5 x h s
  | .snum6 m h => Sys2Proof.Machine.execSnum6 m h s
  | .text7 p => Sys2Proof.Machine.execText7 p s
  | .snum8 m h => Sys2Proof.Machine.execSnum8 m h s
  | .text9 p => Sys2Proof.Machine.execText9 p s
  | .textcA p => Sys2Proof.Machine.execTextcA p s
  | .textuB p => Sys2Proof.Machine.execTextuB p s
  | .textC p => Sys2Proof.Machine.execTextC p s
  | .snumD m h => Sys2Proof.Machine.execSnumD m h s
  | .textE p => Sys2Proof.Machine.execTextE p s
  | .unkF x => Sys2Proof.Machine.execUnkF x s

end Sys2Proof.Machine
end

