-- ==== Sys2Proof/Machine/Step.lean ====
section
/-! DEFINITION. One step of the machine (43_merge_block R236, R239): the start of a run, one logical unit, or the end
of a Block. -/

namespace Sys2Proof.Machine

/-- One step. In IDLE it starts the run (log 5). In BUSY it is `Step()` of 43_merge_block R236: fetch, decode and run one
unit, or end the Block. A finished or rejected run has no further step (00_scope R12; log 7). -/
def step (s : State) : Host.Outcome State Fault Refusal :=
  match s.gst with
  | .idle => .next (startRun s)
  | .busy =>
    if s.blk < s.buf.blocks ∧ s.st = .run then
      if hasNext s.cur then
        match nextWord s with
        | some (w, s1) => exec (decodeWord w) s1
        | none => .fault .outsideBuffer
      else .next (endBlock s)
    else .fault .notInRun
  | .finished => .fault .runFinished
  | .rejected => .fault .runRejected

/-- A state whose very next step runs the given opcode-table word. -/
def State.withFetchWord (s : State) (nbits w : Nat) : State := placeFetchWord s nbits w

end Sys2Proof.Machine
end

