-- ==== Sys2Proof/Safety.lean ====
section
/-! DEFINITION. What claims about runs are stated in: the invariants of the spec's prose, and the decoder as the source
describes it, all raw tokens of a Block first and the fold after (43_merge_block R241), to hold the machine against. -/

namespace Sys2Proof.Machine

/-! ## Invariants -/

/-- The cursor is one of 0, 4, …, 1024 (10_state R22). -/
def CursorOk (s : State) : Prop := s.cur % 4 = 0 ∧ s.cur ≤ 1024

/-- `WARN` and the pending token list stay within their bounds (10_state R24, R27). -/
def CountsOk (s : State) : Prop := s.outbuf.length ≤ 256 ∧ s.warn ≤ 256

/-- `ERR` holds a value exactly while `ST = FAILED` (10_state R26; log 2). -/
def ErrOk (s : State) : Prop := s.err.isSome = true ↔ s.st = .failed

/-- `RESULTS` has the entries of the first `n` Blocks, numbered in order from `START` (43_merge_block R240, R243). -/
def Numbered (s : State) (n : Nat) : Prop := s.results.map Prod.fst = (List.range n).map (s.start + ·)

/-- What each run status says of the buffer length, the Block number and the results (43_merge_block R239). -/
def RunOk (s : State) : Prop :=
  match s.gst with
  | .idle => True
  | .busy => s.buf.len % 1024 = 0 ∧ s.blk < s.buf.blocks ∧ s.st = .run ∧ Numbered s s.blk
  | .finished => s.buf.len % 1024 = 0 ∧ s.blk = s.buf.blocks ∧ Numbered s s.blk
  | .rejected => s.buf.len % 1024 ≠ 0 ∧ s.results = []

/-- The longest value a merged token can have: a ten-character number and 255 continuations of seven characters
(log 17: 10_state R32 says 1792). -/
def maxValueLength : Nat := 1795

/-- What holds inside a Block, in terms of the words consumed so far: there is a working token once a word was
consumed (43_merge_block R230), at most one token and one warning for each word (10_state R24, R27), and only the first
token of a Block can be a continuation (R31, 43_merge_block R234). -/
def BlockOk (s : State) : Prop :=
  (s.wt = none ↔ s.cur = 0) ∧
  s.outbuf.length + (if s.wt.isSome then 1 else 0) ≤ s.cur / 4 ∧
  s.warn ≤ s.cur / 4 ∧
  (∀ t ∈ s.outbuf.tail, t.colour ≠ .cont) ∧
  (∀ w, s.wt = some w → w.colour = .cont → s.outbuf = []) ∧
  (∀ w, s.wt = some w → w.value.length ≤ 7 * (s.cur / 4) + 3) ∧
  (∀ t ∈ s.outbuf, t.value.length ≤ maxValueLength)

/-- A Decode Result that a Block can have: a non-empty list of at most 256 merged tokens, none but the first a
continuation (43_merge_block R237, R234), or a bad character code inside the table's domain; never a bad number
(42_number R198). -/
def ResultOk : DecodeResult → Prop
  | .tokens ts => ts ≠ [] ∧ ts.length ≤ 256 ∧ (∀ t ∈ ts.tail, t.colour ≠ .cont) ∧
      ∀ t ∈ ts, t.value.length ≤ maxValueLength
  | .error (.badCharCode code pos offset) =>
      inCharDomain code = true ∧ pos ≤ 26 ∧ offset % 4 = 0 ∧ offset ≤ 1020
  | .error (.badNumberBits _) => False

/-- Every committed result is one a Block can have. -/
def ResultsOk (s : State) : Prop := ∀ r ∈ s.results, ResultOk r.2

/-- The machine's invariant: it holds at reset and every step keeps it. -/
def Inv (s : State) : Prop :=
  s.buf.wf = true ∧ CursorOk s ∧ CountsOk s ∧ ErrOk s ∧ RunOk s ∧ ResultsOk s ∧ (s.gst = .busy → BlockOk s)

/-! ## The decoder of the source: raw tokens, then the fold -/

/-- The raw tokens of a Block's remaining words, the first of them at `offset`, or the first failure
(40_fetch_dispatch R126, 60_exceptions R277). -/
def rawTokens (cfg : Config) : Nat → List Word → Except HardFailure (List Token)
  | _, [] => .ok []
  | offset, w :: ws =>
    match cfg.ftable.row (fcode w) with
    | .unknown => (rawTokens cfg (offset + 4) ws).map (unknownToken :: ·)
    | .mapped col .shortNumber _ =>
      (rawTokens cfg (offset + 4) ws).map (shortToken col (field27 w) (hexFlag w) :: ·)
    | .mapped col .longNumber _ =>
      match ws with
      | [] => .ok [longToken col (hexFlag w) 0]
      | w2 :: rest => (rawTokens cfg (offset + 8) rest).map (longToken col (hexFlag w) w2 :: ·)
    | .mapped col _ cf =>
      match textToken cfg.charset offset col cf (payload w) with
      | .error e => .error e
      | .ok t => (rawTokens cfg (offset + 4) ws).map (t :: ·)

/-- The fold from a working token: a continuation is appended, any other token starts anew, the last is emitted
(43_merge_block R231, R232). -/
def foldFrom (w : Token) : List Token → List Token
  | [] => [w]
  | t :: ts =>
    if t.colour = .cont then foldFrom ⟨w.colour, w.value ++ t.value⟩ ts else w :: foldFrom t ts

/-- The merged tokens of a raw token stream. -/
def foldTokens : List Token → List Token
  | [] => []
  | t :: ts => foldFrom t ts

/-- The Decode Result of a Block's words (43_merge_block R237, R238). -/
def decodeBlock (cfg : Config) (ws : List Word) : DecodeResult :=
  match rawTokens cfg 0 ws with
  | .ok ts => .tokens (foldTokens ts)
  | .error e => .error e

/-- A byte of the caller's sequence. -/
def byteAt (bytes : List Byte) (a : Nat) : Byte := bytes.getD a 0

/-- The word at byte address `a` of the caller's sequence (20_memory R52). -/
def wordAt (bytes : List Byte) (a : Nat) : Word :=
  wordOfBytes (byteAt bytes a) (byteAt bytes (a + 1)) (byteAt bytes (a + 2)) (byteAt bytes (a + 3))

/-- The 256 words of Block `b` (20_memory R51). -/
def blockWords (bytes : List Byte) (b : Nat) : List Word :=
  (List.range 256).map fun i => wordAt bytes (1024 * b + 4 * i)

/-- The results of a buffer of `k` Blocks, numbered from `start` (43_merge_block R240, R243). -/
def decodeBuffer (cfg : Config) (start k : Nat) (bytes : List Byte) : List (Nat × DecodeResult) :=
  (List.range k).map fun b => (start + b, decodeBlock cfg (blockWords bytes b))

/-- A row that takes a second word (30_encoding R80, R95). -/
def isLongRow : FRow → Bool
  | .mapped _ .longNumber _ => true
  | _ => false

/-! ## Two Blocks with the same contents -/

/-- Two machines that are at the same place of Blocks with the same 1024 bytes and the same configuration; the rest of
the buffer, the Block number, `START` and `RESULTS` may differ (20_memory R59 c). -/
def SameBlock (s t : State) : Prop :=
  s.cfg = t.cfg ∧ s.cur = t.cur ∧ s.wt = t.wt ∧ s.outbuf = t.outbuf ∧ s.warn = t.warn ∧ s.err = t.err ∧
  s.gst = .busy ∧ t.gst = .busy ∧ s.st = .run ∧ t.st = .run ∧ s.cur % 4 = 0 ∧
  s.blk < s.buf.blocks ∧ t.blk < t.buf.blocks ∧
  ∀ o, o < 1024 → s.buf.get? (1024 * s.blk + o) = t.buf.get? (1024 * t.blk + o)

/-! ## Packing character codes, the inverse of the unpacker -/

/-- The number of bits of a code of the table's domain (30_encoding R88). -/
def codeBits (code : Nat) : Nat := if code < 8 then 4 else if code < 24 then 5 else 7

/-- The bits of a sequence of codes. -/
def packedBits : List Nat → Nat
  | [] => 0
  | c :: cs => codeBits c + packedBits cs

/-- The codes left-justified in a payload whose first free bit, from the left, is at `pos`; what does not fit is dropped
from the right of the last code (30_encoding R82, R89). -/
def packFrom : Nat → List Nat → Nat
  | _, [] => 0
  | pos, c :: cs => (c * 2 ^ 28) / 2 ^ (pos + codeBits c) + packFrom (pos + codeBits c) cs

end Sys2Proof.Machine
end

