-- ==== Sys2Proof/Certificates/Slice0/Obligations.lean ====
section
/-! DEFINITION. The statements about the machine, from the numbered rules of spec/. -/

open Sys2Proof Sys2Proof.Machine

/-! ## Memory and the Word Reader -/

/-- 20_memory R52: a word is the little-endian value of its four bytes. -/
def Obligations.WordIsLittleEndian : Prop :=
  ∀ (b : Buf) (a : Nat) (b0 b1 b2 b3 : Byte),
    b.get? a = some b0 → b.get? (a + 1) = some b1 → b.get? (a + 2) = some b2 → b.get? (a + 3) = some b3 →
    ∃ w : Word, b.word? a = some w ∧
      w.toNat = b0.toNat + 256 * b1.toNat + 65536 * b2.toNat + 16777216 * b3.toNat

/-- 20_memory R53: the function code is the low nibble of the first stored byte and the display flag its bit 4. -/
def Obligations.FirstByteHoldsCodeAndFlag : Prop :=
  ∀ b0 b1 b2 b3 : Byte,
    (fcode (wordOfBytes b0 b1 b2 b3)).toNat = b0.toNat % 16 ∧
    hexFlag (wordOfBytes b0 b1 b2 b3) = b0.getLsbD 4 ∧
    (payload (wordOfBytes b0 b1 b2 b3)).toNat =
      b0.toNat / 16 + 16 * b1.toNat + 4096 * b2.toNat + 1048576 * b3.toNat

/-- 20_memory R57, 10_state R29: no step writes the buffer or the configuration. -/
def Obligations.BufferAndConfigNeverWritten : Prop :=
  (∀ s t : State, step s = .next t →
    (∀ a, t.buf.get? a = s.buf.get? a) ∧ t.buf = s.buf ∧ t.cfg = s.cfg ∧ t.start = s.start) ∧
  (∀ (i : Instr) (s t : State), exec i s = .next t →
    (∀ a, t.buf.get? a = s.buf.get? a) ∧ t.buf = s.buf ∧ t.cfg = s.cfg ∧ t.start = s.start)

/-! ## Encoding -/

/-- Decoding an encoded instruction gives it back, whatever follows (30_encoding R82 to R85). -/
def Obligations.DecodeInvertsEncode : Prop :=
  ∀ (i : Instr) (rest : List Byte), i.wf = true → decode (encode i ++ rest) = .ok (i, rest)

/-- 30_encoding R94: any four bytes are an instruction, and no bit of them is lost. -/
def Obligations.EveryWordIsAnInstruction : Prop :=
  ∀ (b0 b1 b2 b3 : Byte) (rest : List Byte),
    ∃ i : Instr, decode (b0 :: b1 :: b2 :: b3 :: rest) = .ok (i, rest) ∧ encode i = [b0, b1, b2, b3]

/-- Words written out from the encodings of spec/opcode_table.json decode to their instructions. -/
def Obligations.SampleWordsDecode : Prop :=
  decodeWord 0b00110001001011001000000000000000#32 = .cont0 0x312C800#28 ∧
  decodeWord 0b00010010001101000101011001111001#32 = .text9 0x1234567#28 ∧
  decodeWord 0b00000000000001100011111010111000#32 = .snum8 12789#27 true ∧
  decodeWord 0b11111111111111111111111111100010#32 = .lnum2 0x7FFFFFF#27 false ∧
  decodeWord 0b11111111111111111111111111111111#32 = .unkF 0xFFFFFFF#28

/-! ## The function-code table and the dispatch -/

/-- 30_encoding R86: the rows the source settles, whatever the configuration; code 0 is the only continuation, 0xA and
0xB have the only case flags, and a mapped code other than 0 has one of the eight colours. -/
def Obligations.SettledRowsHold : Prop :=
  (∃ (t : FTable) (f : FCode), t.row f = .unknown) ∧
  ∀ t : FTable,
    t.row 0 = .mapped .cont .continuation .none ∧
    t.row 2 = .mapped (.hue .yellow) .longNumber .none ∧
    t.row 8 = .mapped (.hue .yellow) .shortNumber .none ∧
    t.row 9 = .mapped (.hue .white) .text .none ∧
    (∃ h, t.row 0xA = .mapped (.hue h) .text .cap) ∧
    (∃ h, t.row 0xB = .mapped (.hue h) .text .upper) ∧
    t.row 0xC = .mapped (.hue .magenta) .text .none ∧
    ∀ (f : FCode) (col : Colour) (cat : Category) (cf : CaseFlag), t.row f = .mapped col cat cf →
      (cat = .continuation ↔ f = 0) ∧ (cf ≠ .none ↔ f = 0xA ∨ f = 0xB) ∧ (f ≠ 0 → ∃ h, col = .hue h)

/-- 30_encoding R86, R87: the reference table, whole, as the opcode table lists it (the R87 cells are the spec's general
knowledge: log 4). -/
def Obligations.ReferenceRowsAreTheOpcodeTable : Prop :=
  (List.range 16).map (fun f => referenceFTable.row (BitVec.ofNat 4 f)) =
    [.mapped .cont .continuation .none, .mapped (.hue .yellow) .text .none,
     .mapped (.hue .yellow) .longNumber .none, .mapped (.hue .red) .text .none,
     .mapped (.hue .green) .text .none, .mapped (.hue .green) .longNumber .none,
     .mapped (.hue .green) .shortNumber .none, .mapped (.hue .cyan) .text .none,
     .mapped (.hue .yellow) .shortNumber .none, .mapped (.hue .white) .text .none,
     .mapped (.hue .white) .text .cap, .mapped (.hue .white) .text .upper,
     .mapped (.hue .magenta) .text .none, .mapped (.hue .silver) .shortNumber .none,
     .mapped (.hue .blue) .text .none, .unknown]

/-- 40_fetch_dispatch R123: every instruction does what the row of its function code says, each category its own
operation: the unknown word (R124), a text word or a continuation (41_text R159, with its failure, 43_merge_block R238; the
error's content is D7, log 16), a short number (42_number R195), a long number with a second word and without one (R196,
R197; that the cursor then stays is the spec's decision D10, log 13). -/
def Obligations.RowSelectsOperation : Prop :=
  ∀ (w : Word) (s : State),
    (s.cfg.ftable.row (fcode w) = .unknown →
      exec (decodeWord w) s = .next (merge unknownToken (s.setWarn (s.warn + 1)))) ∧
    (∀ col cat cf, s.cfg.ftable.row (fcode w) = .mapped col cat cf → cat = .text ∨ cat = .continuation →
      (∀ str, unpack s.cfg.charset (s.cur - 4) (payload w) = .ok str →
        exec (decodeWord w) s = .next (merge ⟨col, applyCase cf str⟩ s)) ∧
      (∀ e, unpack s.cfg.charset (s.cur - 4) (payload w) = .error e →
        exec (decodeWord w) s = .next (failBlock e s))) ∧
    (∀ col cf, s.cfg.ftable.row (fcode w) = .mapped col .shortNumber cf →
      exec (decodeWord w) s = .next (merge ⟨col, render (hexFlag w) (tc (field27 w).toNat 27)⟩ s)) ∧
    (∀ col cf, s.cfg.ftable.row (fcode w) = .mapped col .longNumber cf →
      (∀ w2, s.cur < 1024 → s.buf.word? (1024 * s.blk + s.cur) = some w2 →
        exec (decodeWord w) s =
          .next (merge ⟨col, render (hexFlag w) (tc w2.toNat 32)⟩ (s.setCur (s.cur + 4)))) ∧
      (1024 ≤ s.cur → exec (decodeWord w) s = .next (merge ⟨col, render (hexFlag w) 0⟩ s)))

/-! ## Text words -/

/-- 41_text R160, R165, R168: CONT.0, TEXT.9 and TEXT.C end in the merge of their text in their colour. -/
def Obligations.FixedTextWordsComplete : Prop :=
  ∀ (s : State) (p : Payload) (str : List Char), unpack s.cfg.charset (s.cur - 4) p = .ok str →
    exec (.cont0 p) s = .next (merge ⟨.cont, str⟩ s) ∧
    exec (.text9 p) s = .next (merge ⟨.hue .white, str⟩ s) ∧
    exec (.textC p) s = .next (merge ⟨.hue .magenta, str⟩ s)

/-- 41_text R166, R167: TEXTC.A capitalizes the first emitted character and TEXTU.B upper-cases all (`upper` of
non-letters: log 14); the colour is the table's (log 4). -/
def Obligations.CasedTextWordsComplete : Prop :=
  ∀ (s : State) (p : Payload) (str : List Char), unpack s.cfg.charset (s.cur - 4) p = .ok str →
    exec (.textcA p) s = .next (merge ⟨.hue s.cfg.ftable.colourA,
      match str with
      | [] => []
      | ch :: rest => upper ch :: rest⟩ s) ∧
    exec (.textuB p) s = .next (merge ⟨.hue s.cfg.ftable.colourB, str.map upper⟩ s)

/-- 41_text R161 to R164, R169: where the open row is a text row, the word ends in the merge of its text in the row's
colour (the reference rows: yellow, red, green, cyan, blue; log 4). -/
def Obligations.OpenTextWordsComplete : Prop :=
  ∀ (s : State) (p : Payload) (str : List Char) (h : Hue), unpack s.cfg.charset (s.cur - 4) p = .ok str →
    (s.cfg.ftable.row1 = .text h → exec (.text1 p) s = .next (merge ⟨.hue h, str⟩ s)) ∧
    (s.cfg.ftable.row3 = .text h → exec (.text3 p) s = .next (merge ⟨.hue h, str⟩ s)) ∧
    (s.cfg.ftable.row4 = .text h → exec (.text4 p) s = .next (merge ⟨.hue h, str⟩ s)) ∧
    (s.cfg.ftable.row7 = .text h → exec (.text7 p) s = .next (merge ⟨.hue h, str⟩ s)) ∧
    (s.cfg.ftable.rowE = .text h → exec (.textE p) s = .next (merge ⟨.hue h, str⟩ s))

/-- 41_text R150 to R152, 30_encoding R88, R89: a code read at `pos` has the length its first two bits give; bit `j`
of it, from the left, is payload bit `pos + j` from the left, and zero past the end of the payload. -/
def Obligations.CodeBitsComeFromPayload : Prop :=
  ∀ (p : Payload) (c : PackedCode), c ∈ codesOf p →
    let len := if p.getLsbD (27 - c.pos) = false then 4 else if p.getLsbD (26 - c.pos) = false then 5 else 7
    c.code < 2 ^ len ∧
    ∀ j, j < len → c.code.testBit (len - 1 - j) = (decide (c.pos + j < 28) && p.getLsbD (27 - (c.pos + j)))

/-- 41_text R155, R156, R170: codes follow each other from bit 0 without a gap, each starts where two bits remain, at
most one bit is left over, and a word has four to seven of them, all in the domain of the Charset Table (R171). -/
def Obligations.CodeSequenceShape : Prop :=
  ∀ p : Payload,
    (codesOf p).head?.map PackedCode.pos = some 0 ∧
    (∀ i (h : i + 1 < (codesOf p).length),
      ((codesOf p)[i + 1]).pos = ((codesOf p)[i]).pos + codeBits ((codesOf p)[i]).code) ∧
    (∀ c ∈ codesOf p, c.pos ≤ 26 ∧ inCharDomain c.code = true) ∧
    (∀ c, (codesOf p).getLast? = some c → 27 ≤ c.pos + codeBits c.code) ∧
    4 ≤ (codesOf p).length ∧ (codesOf p).length ≤ 7

/-- 30_encoding R82, R88, R89: codes packed left-justified, the last one cut short only by zero bits and keeping its
prefix, are read back exactly, followed by the spaces that the zero fill decodes to. -/
def Obligations.PackedCodesReadBack : Prop :=
  ∀ codes : List Nat,
    (∀ c ∈ codes, inCharDomain c = true) →
    (codes ≠ [] → packedBits codes.dropLast ≤ 26) →
    (∀ c, codes.getLast? = some c → c % 2 ^ (packedBits codes - 28) = 0) →
    (codesOf (BitVec.ofNat 28 (packFrom 0 codes))).map PackedCode.code =
      codes ++ List.replicate ((28 - packedBits codes + 2) / 4) 0

/-- 30_encoding R92, 41_text R155: one bit left over after the last code is ignored. -/
def Obligations.SpareBitIgnored : Prop :=
  ∀ (p q : Payload) (c : PackedCode),
    (codesOf p).getLast? = some c → c.pos + codeBits c.code = 27 →
    (∀ j, 0 < j → p.getLsbD j = q.getLsbD j) → codesOf q = codesOf p

/-- 41_text R153, 60_exceptions R277: the unpacker fails at the first code that the table does not define, and
records that code, its position and the word's offset (the spec's decision D7: log 16). -/
def Obligations.FirstUndefinedCodeReported : Prop :=
  ∀ (cs : CharSet) (offset : Nat) (p : Payload) (e : HardFailure),
    unpack cs offset p = .error e ↔
      ∃ before c after, codesOf p = before ++ c :: after ∧
        (∀ d ∈ before, (cs.char? d.code).isSome = true) ∧ cs.char? c.code = none ∧
        e = .badCharCode c.code c.pos offset

/-- 41_text R153, R154: where the table defines every code, the text is the characters in order without the spaces. -/
def Obligations.DefinedCodesGiveText : Prop :=
  ∀ (cs : CharSet) (offset : Nat) (p : Payload) (chars : List Char),
    (codesOf p).map (fun c => cs.char? c.code) = chars.map some →
    unpack cs offset p = .ok (chars.filter (· ≠ ' '))

/-- 41_text R171: with a table defined on its whole stated domain no text word fails. -/
def Obligations.FullTableNeverFails : Prop :=
  ∀ (cs : CharSet) (offset : Nat) (p : Payload), cs.full = true →
    ∃ str, unpack cs offset p = .ok str ∧ str.length ≤ 7 ∧ ' ' ∉ str

/-- 41_text R157, R158: `Upper` moves `a` to `z` by 32 and leaves every other character (the spec's decision D17, log
14), and the three case policies. -/
def Obligations.CasePolicyActsOnLetters : Prop :=
  (∀ ch : Char, (97 ≤ ch.toNat ∧ ch.toNat ≤ 122 → (upper ch).toNat + 32 = ch.toNat) ∧
    (¬ (97 ≤ ch.toNat ∧ ch.toNat ≤ 122) → upper ch = ch) ∧ upper (upper ch) = upper ch) ∧
  (∀ str : List Char, applyCase .none str = str ∧ applyCase .upper str = str.map upper ∧
    applyCase .cap str = (str.take 1).map upper ++ str.drop 1)

/-! ## Numbers -/

/-- 42_number R190: the two's-complement value of a pattern, and its range. -/
def Obligations.TwosComplementValue : Prop :=
  ∀ v w : Nat, 1 ≤ w → v < 2 ^ w →
    tc v w = (if v < 2 ^ (w - 1) then (v : Int) else (v : Int) - 2 ^ w) ∧
    -(2 : Int) ^ (w - 1) ≤ tc v w ∧ tc v w ≤ (2 : Int) ^ (w - 1) - 1

/-- 42_number R199: `tc` is a bijection whose inverse is the residue modulo `2^w`. -/
def Obligations.TwosComplementInverts : Prop :=
  (∀ v w : Nat, 1 ≤ w → v < 2 ^ w → tc v w % (2 : Int) ^ w = v) ∧
  (∀ (n : Int) (w : Nat), 1 ≤ w → -(2 : Int) ^ (w - 1) ≤ n → n ≤ (2 : Int) ^ (w - 1) - 1 →
    ∃ v : Nat, v < 2 ^ w ∧ (v : Int) = n % (2 : Int) ^ w ∧ tc v w = n)

/-- 42_number R193: `dec` writes decimal digits, no leading zero but for "0" itself, and their value is the number. -/
def Obligations.DecimalDigitsDenote : Prop :=
  ∀ n : Nat,
    (∀ ch ∈ dec n, 48 ≤ ch.toNat ∧ ch.toNat ≤ 57) ∧
    (dec n).foldl (fun acc ch => 10 * acc + (ch.toNat - 48)) 0 = n ∧
    (n = 0 → dec n = ['0']) ∧ (n ≠ 0 → (dec n).head? ≠ some '0')

/-- 42_number R194: `hexl` writes lower-case hexadecimal digits in the same way. -/
def Obligations.HexDigitsDenote : Prop :=
  ∀ n : Nat,
    (∀ ch ∈ hexl n, (48 ≤ ch.toNat ∧ ch.toNat ≤ 57) ∨ (97 ≤ ch.toNat ∧ ch.toNat ≤ 102)) ∧
    (hexl n).foldl (fun acc ch => 16 * acc + (if ch.toNat ≤ 57 then ch.toNat - 48 else ch.toNat - 87)) 0 = n ∧
    (n = 0 → hexl n = ['0']) ∧ (n ≠ 0 → (hexl n).head? ≠ some '0')

/-- 42_number R193: a number with `H = 0` is `#`, a minus sign if it is negative, and its decimal digits. -/
def Obligations.DecimalRendering : Prop :=
  ∀ n : Int, (0 ≤ n → render false n = '#' :: dec n.toNat) ∧ (n < 0 → render false n = '#' :: '-' :: dec (-n).toNat)

/-- 42_number R194: a number with `H = 1` is `$` and its hexadecimal digits; a negative one gets a minus sign before
the digits of its magnitude, which is the spec's own decision D6 (log 9). -/
def Obligations.HexRendering : Prop :=
  ∀ n : Int, (0 ≤ n → render true n = '$' :: hexl n.toNat) ∧ (n < 0 → render true n = '$' :: '-' :: hexl (-n).toNat)

/-- 42_number R203, R202, R204: a short number word ends in the merge of its rendered 27-bit number; SNUM.6 and SNUM.D
where the open row is a short number (log 4). -/
def Obligations.ShortNumbersComplete : Prop :=
  ∀ (s : State) (m : Field27) (h : Bool) (hue : Hue),
    exec (.snum8 m h) s = .next (merge ⟨.hue .yellow, render h m.toInt⟩ s) ∧
    (s.cfg.ftable.row6 = .short hue → exec (.snum6 m h) s = .next (merge ⟨.hue hue, render h m.toInt⟩ s)) ∧
    (s.cfg.ftable.rowD = .short hue → exec (.snumD m h) s = .next (merge ⟨.hue hue, render h m.toInt⟩ s))

/-- 42_number R196, R200, R201: with a second word in the Block, a long number takes it whole and moves the cursor past
it; LNUM.5 where the open row is a long number (log 4). -/
def Obligations.LongNumbersTakeSecondWord : Prop :=
  ∀ (s : State) (x : Field27) (h : Bool) (hue : Hue) (w2 : Word),
    s.cur < 1024 → s.buf.word? (1024 * s.blk + s.cur) = some w2 →
    exec (.lnum2 x h) s = .next (merge ⟨.hue .yellow, render h w2.toInt⟩ (s.setCur (s.cur + 4))) ∧
    (s.cfg.ftable.row5 = .long hue →
      exec (.lnum5 x h) s = .next (merge ⟨.hue hue, render h w2.toInt⟩ (s.setCur (s.cur + 4))))

/-- 42_number R197: a long number whose first word is the last of the Block is zero, and the cursor stays at 1024, which is
the spec's decision D10 (log 13). -/
def Obligations.LongNumberWithoutSecondWord : Prop :=
  ∀ (s : State) (w : Word) (col : Colour) (cf : CaseFlag), s.gst = .busy → s.blk < s.buf.blocks → s.st = .run →
    s.cur = 1020 → s.buf.word? (1024 * s.blk + 1020) = some w →
    s.cfg.ftable.row (fcode w) = .mapped col .longNumber cf →
    step s = .next (merge ⟨col, if hexFlag w then ['$', '0'] else ['#', '0']⟩ (s.setCur 1024))

/-- 30_encoding R84, 70_reset R315: a long number elsewhere in the Block consumes two words in one step, so the second
is never dispatched, whatever its low bits. -/
def Obligations.SecondWordIsData : Prop :=
  ∀ (s : State) (w w2 : Word) (col : Colour) (cf : CaseFlag), s.gst = .busy → s.blk < s.buf.blocks → s.st = .run →
    s.cur % 4 = 0 → s.cur < 1020 →
    s.buf.word? (1024 * s.blk + s.cur) = some w → s.buf.word? (1024 * s.blk + s.cur + 4) = some w2 →
    s.cfg.ftable.row (fcode w) = .mapped col .longNumber cf →
    step s = .next (merge ⟨col, render (hexFlag w) w2.toInt⟩ (s.setCur (s.cur + 8)))

/-- 30_encoding R84, spec/opcode_table.json row LNUM.2: the eight bytes of a long number away from the end of the
Block, first word encoded and then the value, run as that number, for every value and every ignored bit. -/
def Obligations.LongNumberBytesRun : Prop :=
  ∀ (s : State) (x : Field27) (h : Bool) (n : Word), s.gst = .busy → s.blk < s.buf.blocks → s.st = .run →
    s.cur % 4 = 0 → s.cur < 1020 →
    (∀ i, i < 8 → s.buf.get? (1024 * s.blk + s.cur + i) = (encode (.lnum2 x h) ++ leBytes 4 n.toNat)[i]?) →
    step s = .next (merge ⟨.hue .yellow, render h n.toInt⟩ (s.setCur (s.cur + 8)))

/-! ## Unknown words and ignored bits -/

/-- 40_fetch_dispatch R124, R125: UNK.F, where its row is unmapped, counts a warning and yields the sentinel, whatever
its payload. -/
def Obligations.UnknownWordWarns : Prop :=
  ∀ (s : State) (x : Payload), s.cfg.ftable.rowF = .unknown →
    exec (.unkF x) s = .next (merge ⟨.unk, ['?', '?', '?']⟩ (s.setWarn (s.warn + 1)))

/-- 30_encoding R92: words that differ only in ignored bits (`W[31:5]` of a long number's first word, `W[31:4]` of an
unknown word) do the same. -/
def Obligations.IgnoredBitsHaveNoEffect : Prop :=
  ∀ (w v : Word) (s : State), fcode w = fcode v →
    (s.cfg.ftable.row (fcode w) = .unknown → exec (decodeWord w) s = exec (decodeWord v) s) ∧
    (∀ col cf, s.cfg.ftable.row (fcode w) = .mapped col .longNumber cf → hexFlag w = hexFlag v →
      exec (decodeWord w) s = exec (decodeWord v) s)

/-! ## The merger -/

/-- 43_merge_block R231: the merge step, register by register; nothing but `WT` and `OUTBUF` changes. -/
def Obligations.MergeStep : Prop :=
  ∀ (t : Token) (s : State),
    (s.wt = none → (merge t s).wt = some t ∧ (merge t s).outbuf = s.outbuf) ∧
    (∀ w, s.wt = some w → t.colour = .cont →
      (merge t s).wt = some ⟨w.colour, w.value ++ t.value⟩ ∧ (merge t s).outbuf = s.outbuf) ∧
    (∀ w, s.wt = some w → t.colour ≠ .cont →
      (merge t s).wt = some t ∧ (merge t s).outbuf = s.outbuf ++ [w]) ∧
    ((merge t s).setWt none).setOutbuf [] = (s.setWt none).setOutbuf []

/-- 43_merge_block R234, R235: a continuation is appended to whatever token there is, a number's text or the sentinel
too (the spec's decision D11, log 10), and a first continuation becomes the working token (D12, log 11). -/
def Obligations.ContinuationAppendsOrLeads : Prop :=
  ∀ (s : State) (p : Payload) (str : List Char), unpack s.cfg.charset (s.cur - 4) p = .ok str →
    ∃ t, exec (.cont0 p) s = .next t ∧ t.outbuf = s.outbuf ∧
      t.wt = match s.wt with
        | none => some ⟨.cont, str⟩
        | some w => some ⟨w.colour, w.value ++ str⟩

/-- 70_reset R319: with a token in hand and the space at code 0, an all-zero word changes nothing but the cursor
that the fetch moved. -/
def Obligations.ZeroWordChangesNothing : Prop :=
  ∀ (s : State) (w : Token), s.cfg.charset.char? 0 = some ' ' → s.wt = some w →
    exec (decodeWord 0) s = .next s

/-- 43_merge_block R241: merging each raw token as it is produced and flushing gives what folding the whole stream
afterwards gives. -/
def Obligations.StreamingFoldIsBatchFold : Prop :=
  ∀ (s : State) (ts : List Token), s.wt = none → s.outbuf = [] →
    (flush (ts.foldl (fun acc t => merge t acc) s)).outbuf = foldTokens ts

/-! ## Steps, Blocks and runs -/

/-- A step in a running Block fetches the four bytes at `1024·BLK + CUR`, moves the cursor past them and runs the
instruction they decode to (43_merge_block R236). -/
def Obligations.StepRunsDecodedInstruction : Prop :=
  ∀ (s : State) (b0 b1 b2 b3 : Byte) (i : Instr),
    s.gst = .busy → s.blk < s.buf.blocks → s.st = .run → s.cur < 1024 →
    s.buf.get? (1024 * s.blk + s.cur) = some b0 → s.buf.get? (1024 * s.blk + s.cur + 1) = some b1 →
    s.buf.get? (1024 * s.blk + s.cur + 2) = some b2 → s.buf.get? (1024 * s.blk + s.cur + 3) = some b3 →
    decode [b0, b1, b2, b3] = .ok (i, []) → step s = exec i (s.setCur (s.cur + 4))

/-- The state that holds a placed word runs the instruction the decoder reads from it (log 5). -/
def Obligations.PlacedWordRunsNext : Prop :=
  ∀ (s : State) (nbits w : Nat) (i : Instr), s.buf.wf = true → decodeTableWord nbits w = some i →
    step (s.withFetchWord nbits w) =
      exec i ((s.withFetchWord nbits w).setCur ((s.withFetchWord nbits w).cur + 4))

/-- 43_merge_block R239, 70_reset R311, 60_exceptions R275: the start of a run clears `RESULTS`, and the length
decides between rejection, an empty run that is over, and a run. That the start is a step is log 5, `BLK` on rejection
log 20, `GST = REJECTED` as the signal log 16. -/
def Obligations.RunStartAcceptsOrRejects : Prop :=
  ∀ s : State, s.gst = .idle → ∃ t, step s = .next t ∧ t.results = [] ∧ t.blk = 0 ∧
    (s.buf.len % 1024 ≠ 0 → t.gst = .rejected) ∧
    (s.buf.len = 0 → t.gst = .finished) ∧
    (s.buf.len % 1024 = 0 → s.buf.len ≠ 0 → t.gst = .busy)

/-- 70_reset R310: whenever a step leaves the machine at the start of a Block, that Block is reset. -/
def Obligations.BlockStartsReset : Prop :=
  ∀ s t : State, step s = .next t → t.gst = .busy → (s.gst = .idle ∨ t.blk ≠ s.blk) →
    t.cur = 0 ∧ t.wt = none ∧ t.outbuf = [] ∧ t.warn = 0 ∧ t.st = .run

/-- 43_merge_block R237, R232: at the end of a Block the working token is flushed and the tokens are committed
under the number `START + BLK`, and the next Block begins or the run is over. What `OUTBUF` and `ST` hold after the run
is over is log 19. -/
def Obligations.BlockEndCommitsTokens : Prop :=
  ∀ (s : State) (w : Token), s.gst = .busy → s.blk < s.buf.blocks → s.st = .run → s.cur = 1024 → s.wt = some w →
    ∃ t, step s = .next t ∧ t.blk = s.blk + 1 ∧
      t.results = s.results ++ [(s.start + s.blk, .tokens (s.outbuf ++ [w]))] ∧
      (s.blk + 1 < s.buf.blocks → t.gst = .busy ∧ t.st = .run ∧ t.cur = 0) ∧
      (s.blk + 1 = s.buf.blocks → t.gst = .finished ∧ t.st = .done ∧ t.outbuf = s.outbuf ++ [w])

/-- 43_merge_block R238, 60_exceptions R278: any word of a text or continuation row with a bad character code fails its
Block: one `Error` entry, no token, and the next Block reset, or the run over with `ST = FAILED`, `ERR` written and the
other registers of the Block as they were. The error's content is the spec's decision D7 (log 16), the kept registers log 19. -/
def Obligations.BadCodeFailsBlock : Prop :=
  ∀ (i : Instr) (s : State) (col : Colour) (cat : Category) (cf : CaseFlag) (e : HardFailure),
    s.cfg.ftable.row (fcode (encodeWord i)) = .mapped col cat cf → cat = .text ∨ cat = .continuation →
    unpack s.cfg.charset (s.cur - 4) (payload (encodeWord i)) = .error e →
    ∃ t, exec i s = .next t ∧ t.blk = s.blk + 1 ∧
      t.results = s.results ++ [(s.start + s.blk, .error e)] ∧
      (s.blk + 1 < s.buf.blocks →
        t.gst = s.gst ∧ t.st = .run ∧ t.cur = 0 ∧ t.wt = none ∧ t.outbuf = [] ∧ t.warn = 0) ∧
      (¬ s.blk + 1 < s.buf.blocks → t.gst = .finished ∧ t.st = .failed ∧ t.err = some e ∧
        t.cur = s.cur ∧ t.wt = s.wt ∧ t.outbuf = s.outbuf ∧ t.warn = s.warn)

/-- The frame of a unit that completes (all sixteen instructions): the run registers, `ST`, `ERR` and `RESULTS` stay; the
cursor moves only over a long number's second word; `WARN` counts only an unknown word; `OUTBUF` gains at most the old
working token (10_state R22, R23, R27, R33). -/
def Obligations.CompletedUnitFrame : Prop :=
  ∀ (i : Instr) (s t : State), exec i s = .next t → t.blk = s.blk →
    t.gst = s.gst ∧ t.st = s.st ∧ t.err = s.err ∧ t.results = s.results ∧
    (∀ a, t.buf.get? a = s.buf.get? a) ∧ t.cfg = s.cfg ∧ t.start = s.start ∧
    t.cur = s.cur + (if s.cur < 1024 ∧ isLongRow (s.cfg.ftable.row (fcode (encodeWord i))) = true then 4 else 0) ∧
    t.warn = s.warn + (if s.cfg.ftable.row (fcode (encodeWord i)) = .unknown then 1 else 0) ∧
    t.wt ≠ none ∧ (t.outbuf = s.outbuf ∨ ∃ w, s.wt = some w ∧ t.outbuf = s.outbuf ++ [w])

/-- No instruction stops the machine where the words of its Block exist (30_encoding R94). -/
def Obligations.EveryInstructionAnswersNext : Prop :=
  ∀ (i : Instr) (s : State), s.buf.len % 1024 = 0 → s.blk < s.buf.blocks → s.cur % 4 = 0 →
    ∃ t, exec i s = .next t

/-- A finished or rejected run has no further step (00_scope R12; log 7). -/
def Obligations.RunOverHasNoStep : Prop :=
  ∀ s : State, (s.gst = .finished → step s = .fault .runFinished) ∧ (s.gst = .rejected → step s = .fault .runRejected)

/-- The invariant holds at reset (`State.reset`'s values are partly the model's choice: logs 1, 2). -/
def Obligations.InvariantAtReset : Prop := Inv State.reset

/-- Every step keeps the invariant, from every state that has it: the cursor's values (10_state R22), the bounds of
`OUTBUF` and `WARN` (R24, R27), the numbering of `RESULTS` (43_merge_block R240, R243), that only a Block's first token
can be a continuation (R234), and that no result is a bad number (42_number R198). That `ERR` is absent unless `ST = FAILED`
is log 2, the bound 1795 is log 17; that a start without a Block keeps the Block's registers is log 21. -/
def Obligations.StepKeepsInvariant : Prop :=
  ∀ s t : State, Inv s → step s = .next t → Inv t

/-- 00_scope R12: a running machine never stops short, and each of its steps increases `(BLK, CUR)`. -/
def Obligations.BusyStepProgresses : Prop :=
  ∀ s : State, Inv s → s.gst = .busy →
    ∃ t, step s = .next t ∧ (s.blk < t.blk ∨ s.blk = t.blk ∧ s.cur < t.cur) ∧ t.blk ≤ t.buf.blocks

/-- 43_merge_block R240, R243, R244: a run over `k` Blocks is over within `257·k` steps after its start (a step: log 5),
with exactly `k` results numbered in order. -/
def Obligations.RunYieldsOneResultPerBlock : Prop :=
  ∀ (bytes : List Byte) (start k : Nat) (cfg : Config) (s : State), bytes.length = 1024 * k →
    ∃ n t, n ≤ 257 * k + 1 ∧ core.run n (load bytes start cfg s) = .next t ∧
      t.gst = .finished ∧ t.results.length = k ∧ t.results.map Prod.fst = (List.range k).map (start + ·)

/-- The machine computes what the source describes: all raw tokens of each Block, then the fold, one result for each
Block in order (43_merge_block R237 to R243). The tokens contain the spec's decisions D6, D17, D11, D12 (logs 9, 14, 10, 11). -/
def Obligations.RunMatchesDecoder : Prop :=
  ∀ (bytes : List Byte) (start k : Nat) (cfg : Config) (s : State), bytes.length = 1024 * k →
    ∃ n t, core.run n (load bytes start cfg s) = .next t ∧
      t.gst = .finished ∧ t.results = decodeBuffer cfg start k bytes

/-- 20_memory R59: what a Block does depends on its own bytes and the configuration alone. Two machines at the same
place of equal Blocks stay so, or end the Block with the same result. -/
def Obligations.BlockDependsOnItsBytesOnly : Prop :=
  ∀ s t s' : State, SameBlock s t → step s = .next s' →
    ∃ t', step t = .next t' ∧
      ((SameBlock s' t' ∧ s'.results = s.results ∧ t'.results = t.results) ∨
       (∃ r, s'.results = s.results ++ [(s.start + s.blk, r)] ∧
          t'.results = t.results ++ [(t.start + t.blk, r)]))

/-- 43_merge_block R243: `START` numbers the results and does nothing else. -/
def Obligations.StartOnlyNumbersResults : Prop :=
  ∀ (s s' : State) (n : Nat), step s = .next s' →
    ∃ t', step (s.setStart n) = .next t' ∧ t'.setResults [] = (s'.setStart n).setResults [] ∧
      t'.results.map Prod.snd = s'.results.map Prod.snd
end

