-- ==== Sys2Proof/Laws/Buffer.lean ====
section
/-! SUPPORT. The input buffer: its canonical form is kept by every operation, and what a byte reads as after one. -/

namespace Sys2Proof.Machine

theorem cellsWf_mono {lo lo' len : Nat} {cs : List Host.Cell} (h : cellsWf lo len cs = true) (hl : lo' ≤ lo) :
    cellsWf lo' len cs = true := by
  cases cs with
  | nil => rfl
  | cons c cs =>
    simp only [cellsWf, Bool.and_eq_true, decide_eq_true_eq] at h ⊢
    exact ⟨⟨⟨by omega, h.1.1.2⟩, h.1.2⟩, h.2⟩

theorem cellsWf_len {lo len len' : Nat} {cs : List Host.Cell} (h : cellsWf lo len cs = true) (hl : len ≤ len') :
    cellsWf lo len' cs = true := by
  induction cs generalizing lo with
  | nil => rfl
  | cons c cs ih =>
    simp only [cellsWf, Bool.and_eq_true, decide_eq_true_eq] at h ⊢
    exact ⟨⟨⟨h.1.1.1, by omega⟩, h.1.2⟩, ih h.2⟩

/-- No cell lies below the bound. -/
theorem lookup_below {lo len a : Nat} {cs : List Host.Cell} (h : cellsWf lo len cs = true) (ha : a < lo) :
    cs.lookup a = none := by
  induction cs generalizing lo with
  | nil => rfl
  | cons c cs ih =>
    simp only [cellsWf, Bool.and_eq_true, decide_eq_true_eq] at h
    have hne : (a == c.1) = false := by simp; omega
    simp only [List.lookup, hne]
    exact ih h.2 (by omega)

theorem setCell_wf {lo len a : Nat} {v : Byte} {cs : List Host.Cell} (h : cellsWf lo len cs = true)
    (hlo : lo ≤ a) (ha : a < len) : cellsWf lo len (setCell cs a v) = true := by
  induction cs generalizing lo with
  | nil =>
    unfold setCell
    split
    · rfl
    · rename_i hv
      simp [cellsWf, hlo, ha]
      exact hv
  | cons c cs ih =>
    have h' := h
    simp only [cellsWf, Bool.and_eq_true, decide_eq_true_eq] at h
    unfold setCell
    split
    · split
      · exact h'
      · rename_i h1 hv
        simp only [cellsWf, Bool.and_eq_true, decide_eq_true_eq]
        exact ⟨⟨⟨hlo, ha⟩, hv⟩, ⟨⟨by omega, h.1.1.2⟩, h.1.2⟩, h.2⟩
    · split
      · rename_i h1 h2
        split
        · exact cellsWf_mono h.2 (by omega)
        · rename_i hv
          simp only [cellsWf, Bool.and_eq_true, decide_eq_true_eq]
          exact ⟨⟨⟨hlo, ha⟩, hv⟩, by rw [h2]; exact h.2⟩
      · rename_i h1 h2
        simp only [cellsWf, Bool.and_eq_true, decide_eq_true_eq]
        exact ⟨⟨⟨h.1.1.1, h.1.1.2⟩, h.1.2⟩, ih h.2 (by omega)⟩

theorem lookup_setCell_self {lo len a : Nat} {v : Byte} {cs : List Host.Cell} (h : cellsWf lo len cs = true) :
    ((setCell cs a v).lookup a).getD unlistedByte = v := by
  induction cs generalizing lo with
  | nil =>
    unfold setCell
    split
    · rename_i hv; simp [List.lookup, hv]
    · simp [List.lookup]
  | cons c cs ih =>
    simp only [cellsWf, Bool.and_eq_true, decide_eq_true_eq] at h
    unfold setCell
    split
    · rename_i h1
      split
      · rename_i hv
        have hne : (a == c.1) = false := by simp; omega
        simp only [List.lookup, hne]
        rw [lookup_below h.2 (by omega)]
        simp [hv]
      · simp [List.lookup]
    · split
      · rename_i h1 h2
        split
        · rename_i hv
          rw [lookup_below h.2 (by omega)]
          simp [hv]
        · simp [List.lookup]
      · rename_i h1 h2
        have hne : (a == c.1) = false := by simp; omega
        simp only [List.lookup, hne]
        exact ih h.2

theorem lookup_setCell_other {a x : Nat} {v : Byte} {cs : List Host.Cell} (hx : x ≠ a) :
    (setCell cs a v).lookup x = cs.lookup x := by
  have hxa : (x == a) = false := by simp [hx]
  induction cs with
  | nil =>
    unfold setCell
    split <;> simp [List.lookup, hxa]
  | cons c cs ih =>
    unfold setCell
    split
    · split
      · rfl
      · simp only [List.lookup, hxa]
    · split
      · rename_i h1 h2
        have hxc : (x == c.1) = false := by rw [← h2]; exact hxa
        split
        · simp only [List.lookup, hxc]
        · simp only [List.lookup, hxa, hxc]
      · simp only [List.lookup]
        split
        · rfl
        · exact ih

/-! ## One byte -/

@[simp] theorem Buf.set_len (b : Buf) (a : Nat) (v : Byte) : (b.set a v).len = b.len := by
  unfold Buf.set; split <;> rfl

theorem Buf.set_wf {b : Buf} (h : b.wf = true) (a : Nat) (v : Byte) : (b.set a v).wf = true := by
  unfold Buf.set
  split
  · exact setCell_wf h (Nat.zero_le _) (by assumption)
  · exact h

theorem Buf.get?_set_self {b : Buf} (h : b.wf = true) {a : Nat} (ha : a < b.len) (v : Byte) :
    (b.set a v).get? a = some v := by
  simp only [Buf.get?, Buf.set_len, ha, if_true, Option.some.injEq]
  unfold Buf.set
  rw [if_pos ha]
  exact lookup_setCell_self h

theorem Buf.get?_set_other (b : Buf) {a x : Nat} (hx : x ≠ a) (v : Byte) : (b.set a v).get? x = b.get? x := by
  simp only [Buf.get?, Buf.set_len]
  split
  · unfold Buf.set
    split
    · simp only [lookup_setCell_other hx]
    · rfl
  · rfl

/-- A byte exists exactly below `LEN`. -/
theorem Buf.get?_isSome (b : Buf) (a : Nat) : (b.get? a).isSome = decide (a < b.len) := by
  unfold Buf.get?; split <;> simp [*]

/-- A word exists where its last byte does. -/
theorem Buf.word?_isSome {b : Buf} {a : Nat} (h : a + 3 < b.len) : ∃ w, b.word? a = some w := by
  unfold Buf.word? Buf.get?
  rw [if_pos (by omega), if_pos (by omega), if_pos (by omega), if_pos h]
  exact ⟨_, rfl⟩

/-! ## Several bytes -/

@[simp] theorem Buf.setBytes_len (b : Buf) (a : Nat) (vs : List Byte) : (b.setBytes a vs).len = b.len := by
  induction vs generalizing b a with
  | nil => rfl
  | cons v vs ih => simp [Buf.setBytes, ih]

theorem Buf.setBytes_wf {b : Buf} (h : b.wf = true) (a : Nat) (vs : List Byte) : (b.setBytes a vs).wf = true := by
  induction vs generalizing b a with
  | nil => exact h
  | cons v vs ih => exact ih (Buf.set_wf h a v) (a + 1)

theorem Buf.get?_setBytes_below (b : Buf) {a x : Nat} (vs : List Byte) (hx : x < a) :
    (b.setBytes a vs).get? x = b.get? x := by
  induction vs generalizing b a with
  | nil => rfl
  | cons v vs ih => rw [Buf.setBytes, ih _ (by omega), Buf.get?_set_other _ (by omega)]

theorem Buf.get?_setBytes {b : Buf} (h : b.wf = true) {a : Nat} {vs : List Byte} (ha : a + vs.length ≤ b.len)
    {i : Nat} (hi : i < vs.length) : (b.setBytes a vs).get? (a + i) = some vs[i] := by
  induction vs generalizing b a i with
  | nil => simp at hi
  | cons v vs ih =>
    simp only [List.length_cons] at ha hi
    cases i with
    | zero =>
      rw [Buf.setBytes, Buf.get?_setBytes_below _ _ (by omega)]
      exact Buf.get?_set_self h (by omega) v
    | succ i =>
      have := ih (b := b.set a v) (Buf.set_wf h a v) (a := a + 1) (i := i) (by simp; omega) (by omega)
      rw [Buf.setBytes, show a + (i + 1) = a + 1 + i by omega, this]
      rfl

/-! ## The caller's bytes -/

theorem cellsOf_wf (lo a : Nat) (bs : List Byte) (h : lo ≤ a) : cellsWf lo (a + bs.length) (cellsOf a bs) = true := by
  induction bs generalizing lo a with
  | nil => rfl
  | cons v vs ih =>
    have hlen : a + (v :: vs).length = a + 1 + vs.length := by simp; omega
    unfold cellsOf
    rw [hlen]
    split
    · exact ih lo (a + 1) (by omega)
    · rename_i hv
      simp only [cellsWf, Bool.and_eq_true, decide_eq_true_eq]
      exact ⟨⟨⟨h, by omega⟩, hv⟩, ih (a + 1) (a + 1) (by omega)⟩

theorem Buf.ofBytes_wf (bs : List Byte) : (Buf.ofBytes bs).wf = true := by
  simpa [Buf.wf, Buf.ofBytes] using cellsOf_wf 0 0 bs (Nat.le_refl 0)

theorem lookup_cellsOf (a : Nat) (bs : List Byte) (i : Nat) (hi : i < bs.length) :
    ((cellsOf a bs).lookup (a + i)).getD unlistedByte = bs[i] := by
  induction bs generalizing a i with
  | nil => simp at hi
  | cons v vs ih =>
    have hi' : i < vs.length + 1 := by simpa using hi
    have hbelow : (cellsOf (a + 1) vs).lookup a = none :=
      lookup_below (cellsOf_wf (a + 1) (a + 1) vs (Nat.le_refl _)) (by omega)
    unfold cellsOf
    cases i with
    | zero =>
      split
      · rename_i hv; simp [hbelow, hv]
      · simp [List.lookup]
    | succ i =>
      have h1 := ih (a + 1) i (by omega)
      rw [show a + 1 + i = a + (i + 1) by omega] at h1
      split
      · simpa using h1
      · have hne : (a + (i + 1) == a) = false := by simp
        simpa [List.lookup, hne] using h1

/-- The loaded buffer reads as the caller's bytes (10_state R21). -/
theorem Buf.get?_ofBytes (bs : List Byte) (a : Nat) : (Buf.ofBytes bs).get? a = bs[a]? := by
  unfold Buf.get? Buf.ofBytes
  by_cases h : a < bs.length
  · rw [if_pos h]
    have := lookup_cellsOf 0 bs a h
    simp only [Nat.zero_add] at this
    simp [this, h]
  · rw [if_neg h]
    simp [Nat.le_of_not_lt h]

end Sys2Proof.Machine
end

