-- ==== Sys2Proof/Laws/Decode.lean ====
section
/-! SUPPORT. The fields of the words the encoder builds, and of the words bytes make. -/

namespace Sys2Proof

/-! ## The fields as numbers -/

theorem fcode_toNat (w : Word) : (fcode w).toNat = w.toNat % 16 := by simp [fcode]

theorem payload_toNat (w : Word) : (payload w).toNat = w.toNat / 16 := by
  have := w.isLt
  simp only [payload, BitVec.extractLsb'_toNat, Nat.shiftRight_eq_div_pow]
  omega

theorem field27_toNat (w : Word) : (field27 w).toNat = w.toNat / 32 := by
  have := w.isLt
  simp only [field27, BitVec.extractLsb'_toNat, Nat.shiftRight_eq_div_pow]
  omega

theorem hexFlag_toNat (w : Word) : (hexFlag w).toNat = w.toNat / 16 % 2 := by
  unfold hexFlag BitVec.getLsbD
  rw [Nat.toNat_testBit]

theorem wordTU_toNat (p : Payload) (f : FCode) : (wordTU p f).toNat = 16 * p.toNat + f.toNat := by
  have := p.isLt; have := f.isLt
  unfold wordTU
  rw [BitVec.toNat_ofNat, Nat.mod_eq_of_lt (by omega)]

theorem wordSL_toNat (m : Field27) (h : Bool) (f : FCode) :
    (wordSL m h f).toNat = 32 * m.toNat + 16 * h.toNat + f.toNat := by
  have := m.isLt; have := f.isLt; have := h.toNat_lt
  unfold wordSL
  rw [BitVec.toNat_ofNat, Nat.mod_eq_of_lt (by omega)]

theorem bool_toNat_inj {a b : Bool} (h : a.toNat = b.toNat) : a = b := by
  cases a <;> cases b <;> simp_all

/-! ## The fields of an encoded word -/

@[simp] theorem fcode_wordTU (p : Payload) (f : FCode) : fcode (wordTU p f) = f := by
  apply BitVec.eq_of_toNat_eq
  have := f.isLt
  rw [fcode_toNat, wordTU_toNat]
  omega

@[simp] theorem payload_wordTU (p : Payload) (f : FCode) : payload (wordTU p f) = p := by
  apply BitVec.eq_of_toNat_eq
  have := f.isLt
  rw [payload_toNat, wordTU_toNat]
  omega

@[simp] theorem fcode_wordSL (m : Field27) (h : Bool) (f : FCode) : fcode (wordSL m h f) = f := by
  apply BitVec.eq_of_toNat_eq
  have := f.isLt
  rw [fcode_toNat, wordSL_toNat]
  omega

@[simp] theorem field27_wordSL (m : Field27) (h : Bool) (f : FCode) : field27 (wordSL m h f) = m := by
  apply BitVec.eq_of_toNat_eq
  have := f.isLt; have := h.toNat_lt
  rw [field27_toNat, wordSL_toNat]
  omega

@[simp] theorem hexFlag_wordSL (m : Field27) (h : Bool) (f : FCode) : hexFlag (wordSL m h f) = h := by
  apply bool_toNat_inj
  have := f.isLt; have := h.toNat_lt
  rw [hexFlag_toNat, wordSL_toNat]
  omega

/-- A word is its payload and its function code. -/
theorem wordTU_fields (w : Word) : wordTU (payload w) (fcode w) = w := by
  apply BitVec.eq_of_toNat_eq
  rw [wordTU_toNat, payload_toNat, fcode_toNat]
  omega

/-- A word is its upper 27 bits, its display flag and its function code. -/
theorem wordSL_fields (w : Word) : wordSL (field27 w) (hexFlag w) (fcode w) = w := by
  apply BitVec.eq_of_toNat_eq
  rw [wordSL_toNat, field27_toNat, hexFlag_toNat, fcode_toNat]
  omega

/-- A function code is one of sixteen. -/
theorem fcode_cases (f : FCode) : f = 0 ∨ f = 1 ∨ f = 2 ∨ f = 3 ∨ f = 4 ∨ f = 5 ∨ f = 6 ∨ f = 7 ∨
    f = 8 ∨ f = 9 ∨ f = 10 ∨ f = 11 ∨ f = 12 ∨ f = 13 ∨ f = 14 ∨ f = 15 := by
  revert f; decide

/-- The bits of a word made of four bytes. -/
theorem wordOfBytes_toNat (b0 b1 b2 b3 : Byte) : (wordOfBytes b0 b1 b2 b3).toNat =
    b0.toNat + 256 * b1.toNat + 65536 * b2.toNat + 16777216 * b3.toNat := by
  unfold wordOfBytes
  rw [BitVec.toNat_ofNat, Nat.mod_eq_of_lt]
  have := b0.isLt; have := b1.isLt; have := b2.isLt; have := b3.isLt
  omega

@[simp] theorem leBytes_length (n v : Nat) : (leBytes n v).length = n := by
  induction n generalizing v with
  | zero => rfl
  | succ n ih => simp [leBytes, ih]

theorem leBytes_four (v : Nat) : leBytes 4 v =
    [BitVec.ofNat 8 v, BitVec.ofNat 8 (v / 256), BitVec.ofNat 8 (v / 256 / 256), BitVec.ofNat 8 (v / 256 / 256 / 256)] :=
  rfl

end Sys2Proof
end

