-- ==== Sys2Proof/Laws/Operands.lean ====
section
/-! SUPPORT. The small facts of the unpacker, the case policy and the digits that proofs about them start from. -/

namespace Sys2Proof.Machine

/-! ## One code -/

theorem payloadBits_lt (p : Payload) (pos n : Nat) : payloadBits p pos n < 2 ^ n :=
  Nat.mod_lt _ (Nat.two_pow_pos n)

theorem codeLength_cases (x : Nat) : (x < 2 ∧ codeLength x = 4) ∨ (x = 2 ∧ codeLength x = 5) ∨
    (2 < x ∧ codeLength x = 7) := by
  unfold codeLength
  by_cases h : x < 2
  · exact .inl ⟨h, by simp [h]⟩
  · by_cases h2 : x = 2
    · exact .inr (.inl ⟨h2, by simp [h2]⟩)
    · exact .inr (.inr ⟨by omega, by simp [h, h2]⟩)

theorem codeLength_bounds (x : Nat) : 4 ≤ codeLength x ∧ codeLength x ≤ 7 := by
  rcases codeLength_cases x with ⟨_, h⟩ | ⟨_, h⟩ | ⟨_, h⟩ <;> omega

theorem codeTake_le_length (p : Payload) (pos : Nat) : codeTake p pos ≤ codeLength (payloadBits p pos 2) :=
  Nat.min_le_left _ _

theorem codeTake_le_rest (p : Payload) (pos : Nat) : codeTake p pos ≤ 28 - pos := Nat.min_le_right _ _

theorem two_le_codeTake {p : Payload} {pos : Nat} (h : 28 - pos ≥ 2) : 2 ≤ codeTake p pos := by
  have := (codeLength_bounds (payloadBits p pos 2)).1
  unfold codeTake
  omega

/-- The first two bits of a longer field are the prefix. -/
theorem payloadBits_top (p : Payload) {pos t : Nat} (ht : 2 ≤ t) (hp : pos + t ≤ 28) :
    payloadBits p pos t / 2 ^ (t - 2) = payloadBits p pos 2 := by
  unfold payloadBits
  have h2 : (2 : Nat) ^ t = 2 ^ (t - 2) * 2 ^ 2 := by rw [← Nat.pow_add]; congr 1; omega
  rw [h2, Nat.mod_mul_right_div_self, Nat.shiftRight_eq_div_pow, Nat.shiftRight_eq_div_pow, Nat.div_div_eq_div_mul,
    ← Nat.pow_add]
  congr 3
  omega

/-- The prefix of a padded code is the prefix it was read with (41_text R151). -/
theorem codeValue_top (p : Payload) {pos : Nat} (h : 28 - pos ≥ 2) :
    codeValue p pos / 2 ^ (codeLength (payloadBits p pos 2) - 2) = payloadBits p pos 2 := by
  have h1 := codeTake_le_length p pos
  have h2 := codeTake_le_rest p pos
  have h3 := two_le_codeTake (p := p) h
  rw [codeValue, Nat.shiftLeft_eq,
    show codeLength (payloadBits p pos 2) - 2
      = (codeTake p pos - 2) + (codeLength (payloadBits p pos 2) - codeTake p pos) by omega,
    Nat.pow_add, Nat.mul_div_mul_right _ _ (Nat.two_pow_pos _)]
  exact payloadBits_top p h3 (by omega)

theorem codeValue_lt (p : Payload) (pos : Nat) : codeValue p pos < 2 ^ codeLength (payloadBits p pos 2) := by
  have h1 := codeTake_le_length p pos
  rw [codeValue, Nat.shiftLeft_eq]
  calc _ < 2 ^ codeTake p pos * 2 ^ (codeLength (payloadBits p pos 2) - codeTake p pos) :=
        Nat.mul_lt_mul_of_pos_right (payloadBits_lt _ _ _) (Nat.two_pow_pos _)
    _ = _ := by rw [← Nat.pow_add]; congr 1; omega

/-! ## The sequence of codes -/

theorem codesFrom_step (p : Payload) {pos : Nat} (fuel : Nat) (h : 28 - pos ≥ 2) :
    codesFrom p (fuel + 1) pos = ⟨pos, codeValue p pos⟩ :: codesFrom p fuel (pos + codeTake p pos) := by
  simp only [codesFrom, h, if_true]

theorem codesFrom_stop (p : Payload) {pos : Nat} (fuel : Nat) (h : ¬ 28 - pos ≥ 2) : codesFrom p fuel pos = [] := by
  cases fuel with
  | zero => rfl
  | succ n => simp only [codesFrom, h, if_false]

/-- Every element is one code read at a position where two bits remain. -/
theorem mem_codesFrom {p : Payload} {fuel pos : Nat} {c : PackedCode} (h : c ∈ codesFrom p fuel pos) :
    pos ≤ c.pos ∧ c.pos ≤ 26 ∧ c.code = codeValue p c.pos := by
  induction fuel generalizing pos with
  | zero => simp [codesFrom] at h
  | succ n ih =>
    by_cases hp : 28 - pos ≥ 2
    · rw [codesFrom_step p n hp, List.mem_cons] at h
      rcases h with rfl | h
      · exact ⟨Nat.le_refl _, by simp only; omega, rfl⟩
      · obtain ⟨h1, h2, h3⟩ := ih h
        exact ⟨by omega, h2, h3⟩
    · rw [codesFrom_stop p _ hp] at h
      simp at h

/-! ## Looking the codes up -/

@[simp] theorem lookupCodes_nil (cs : CharSet) (off : Nat) : lookupCodes cs off [] = .ok [] := rfl

theorem lookupCodes_cons (cs : CharSet) (off : Nat) (c : PackedCode) (rest : List PackedCode) :
    lookupCodes cs off (c :: rest) =
      match cs.char? c.code with
      | none => .error (.badCharCode c.code c.pos off)
      | some ch => (lookupCodes cs off rest).map (emitChar ch ++ ·) := rfl

/-- Each code emits at most one character. -/
theorem lookupCodes_length {cs : CharSet} {off : Nat} {l : List PackedCode} {str : List Char}
    (h : lookupCodes cs off l = .ok str) : str.length ≤ l.length := by
  induction l generalizing str with
  | nil =>
    obtain rfl : [] = str := by simpa using h
    rfl
  | cons c rest ih =>
    rw [lookupCodes_cons] at h
    cases hc : cs.char? c.code with
    | none => simp [hc] at h
    | some ch =>
      simp only [hc] at h
      cases hr : lookupCodes cs off rest with
      | error e => simp [hr, Except.map] at h
      | ok r =>
        simp only [hr, Except.map, Except.ok.injEq] at h
        have h1 := ih hr
        rw [← h, List.length_append, List.length_cons]
        have : (emitChar ch).length ≤ 1 := by unfold emitChar; split <;> simp
        omega

/-- The case policy keeps the length. -/
@[simp] theorem applyCase_length (cf : CaseFlag) (str : List Char) : (applyCase cf str).length = str.length := by
  cases cf <;> cases str <;> simp [applyCase]

/-! ## Digits -/

theorem digitsFrom_acc (b fuel n : Nat) (acc : List Char) :
    digitsFrom b fuel n acc = digitsFrom b fuel n [] ++ acc := by
  induction fuel generalizing n acc with
  | zero => rfl
  | succ k ih =>
    simp only [digitsFrom]
    split
    · rfl
    · rw [ih, ih (n := n / b) (acc := [digitChar (n % b)])]
      simp

/-- One digit for a number below the base. -/
theorem digitsFrom_small {b fuel n : Nat} (h : n < b) : digitsFrom b (fuel + 1) n [] = [digitChar n] := by
  simp [digitsFrom, h]

/-- The digits of a larger number: those of its quotient, then its last digit. -/
theorem digitsFrom_large {b fuel n : Nat} (h : ¬ n < b) :
    digitsFrom b (fuel + 1) n [] = digitsFrom b fuel (n / b) [] ++ [digitChar (n % b)] := by
  rw [digitsFrom, if_neg h, digitsFrom_acc]

/-- More fuel than the number of digits needs changes nothing. -/
theorem digitsFrom_fuel {b : Nat} (hb : 2 ≤ b) {fuel n : Nat} (h : n < 2 ^ fuel) (k : Nat) :
    digitsFrom b (fuel + k) n [] = digitsFrom b fuel n [] ∨ fuel = 0 := by
  induction fuel generalizing n with
  | zero => exact .inr rfl
  | succ f ih =>
    left
    rw [show f + 1 + k = (f + k) + 1 by omega]
    by_cases hn : n < b
    · rw [digitsFrom_small hn, digitsFrom_small hn]
    · rw [digitsFrom_large hn, digitsFrom_large hn]
      have hq : n / b < 2 ^ f := by
        apply Nat.div_lt_of_lt_mul
        calc n < 2 ^ (f + 1) := h
          _ = 2 * 2 ^ f := by rw [Nat.pow_succ]; omega
          _ ≤ b * 2 ^ f := Nat.mul_le_mul_right _ hb
      rcases ih hq with h1 | h1
      · rw [h1]
      · subst h1
        have h2 : n / b = 0 := by simpa using hq
        rcases Nat.div_eq_zero_iff.mp h2 with h3 | h3
        · omega
        · exact absurd h3 hn

/-- The digits of a number below the base. -/
theorem digits_small {b n : Nat} (h : n < b) : digits b n = [digitChar n] := digitsFrom_small h

/-- The digits of a number at or above the base: those of its quotient, then its last digit. -/
theorem digits_large {b n : Nat} (hb : 2 ≤ b) (h : ¬ n < b) :
    digits b n = digits b (n / b) ++ [digitChar (n % b)] := by
  unfold digits
  rw [digitsFrom_large h]
  congr 1
  have hn : n ≠ 0 := by omega
  have hq0 : n / b ≠ 0 := by rw [Ne, Nat.div_eq_zero_iff]; omega
  have hq : n / b < 2 ^ ((n / b).log2 + 1) := Nat.lt_log2_self
  have hle : (n / b).log2 + 1 ≤ n.log2 := by
    have : 2 ^ ((n / b).log2 + 1) ≤ n := by
      calc 2 ^ ((n / b).log2 + 1) = 2 * 2 ^ (n / b).log2 := by rw [Nat.pow_succ]; omega
        _ ≤ 2 * (n / b) := Nat.mul_le_mul_left _ (Nat.log2_self_le hq0)
        _ ≤ b * (n / b) := Nat.mul_le_mul_right _ hb
        _ ≤ n := Nat.mul_div_le _ _
    exact (Nat.le_log2 hn).mpr this
  obtain ⟨k, hk⟩ := Nat.exists_eq_add_of_le hle
  rw [hk]
  rcases digitsFrom_fuel hb hq k with h1 | h1
  · exact h1
  · omega

end Sys2Proof.Machine
end

