-- ==== Sys2Proof/Laws/State.lean ====
section
/-! SUPPORT. Each setter of a register writes that register and no other. -/

namespace Sys2Proof.Machine.State

variable (s : State)

@[simp] theorem setCfg_cfg (v : Config) : (s.setCfg v).cfg = v := rfl
@[simp] theorem setCfg_start (v : Config) : (s.setCfg v).start = s.start := rfl
@[simp] theorem setCfg_buf (v : Config) : (s.setCfg v).buf = s.buf := rfl
@[simp] theorem setCfg_gst (v : Config) : (s.setCfg v).gst = s.gst := rfl
@[simp] theorem setCfg_blk (v : Config) : (s.setCfg v).blk = s.blk := rfl
@[simp] theorem setCfg_cur (v : Config) : (s.setCfg v).cur = s.cur := rfl
@[simp] theorem setCfg_wt (v : Config) : (s.setCfg v).wt = s.wt := rfl
@[simp] theorem setCfg_outbuf (v : Config) : (s.setCfg v).outbuf = s.outbuf := rfl
@[simp] theorem setCfg_warn (v : Config) : (s.setCfg v).warn = s.warn := rfl
@[simp] theorem setCfg_st (v : Config) : (s.setCfg v).st = s.st := rfl
@[simp] theorem setCfg_err (v : Config) : (s.setCfg v).err = s.err := rfl
@[simp] theorem setCfg_results (v : Config) : (s.setCfg v).results = s.results := rfl

@[simp] theorem setStart_cfg (v : Nat) : (s.setStart v).cfg = s.cfg := rfl
@[simp] theorem setStart_start (v : Nat) : (s.setStart v).start = v := rfl
@[simp] theorem setStart_buf (v : Nat) : (s.setStart v).buf = s.buf := rfl
@[simp] theorem setStart_gst (v : Nat) : (s.setStart v).gst = s.gst := rfl
@[simp] theorem setStart_blk (v : Nat) : (s.setStart v).blk = s.blk := rfl
@[simp] theorem setStart_cur (v : Nat) : (s.setStart v).cur = s.cur := rfl
@[simp] theorem setStart_wt (v : Nat) : (s.setStart v).wt = s.wt := rfl
@[simp] theorem setStart_outbuf (v : Nat) : (s.setStart v).outbuf = s.outbuf := rfl
@[simp] theorem setStart_warn (v : Nat) : (s.setStart v).warn = s.warn := rfl
@[simp] theorem setStart_st (v : Nat) : (s.setStart v).st = s.st := rfl
@[simp] theorem setStart_err (v : Nat) : (s.setStart v).err = s.err := rfl
@[simp] theorem setStart_results (v : Nat) : (s.setStart v).results = s.results := rfl

@[simp] theorem setBuf_cfg (v : Buf) : (s.setBuf v).cfg = s.cfg := rfl
@[simp] theorem setBuf_start (v : Buf) : (s.setBuf v).start = s.start := rfl
@[simp] theorem setBuf_buf (v : Buf) : (s.setBuf v).buf = v := rfl
@[simp] theorem setBuf_gst (v : Buf) : (s.setBuf v).gst = s.gst := rfl
@[simp] theorem setBuf_blk (v : Buf) : (s.setBuf v).blk = s.blk := rfl
@[simp] theorem setBuf_cur (v : Buf) : (s.setBuf v).cur = s.cur := rfl
@[simp] theorem setBuf_wt (v : Buf) : (s.setBuf v).wt = s.wt := rfl
@[simp] theorem setBuf_outbuf (v : Buf) : (s.setBuf v).outbuf = s.outbuf := rfl
@[simp] theorem setBuf_warn (v : Buf) : (s.setBuf v).warn = s.warn := rfl
@[simp] theorem setBuf_st (v : Buf) : (s.setBuf v).st = s.st := rfl
@[simp] theorem setBuf_err (v : Buf) : (s.setBuf v).err = s.err := rfl
@[simp] theorem setBuf_results (v : Buf) : (s.setBuf v).results = s.results := rfl

@[simp] theorem setGst_cfg (v : RunStatus) : (s.setGst v).cfg = s.cfg := rfl
@[simp] theorem setGst_start (v : RunStatus) : (s.setGst v).start = s.start := rfl
@[simp] theorem setGst_buf (v : RunStatus) : (s.setGst v).buf = s.buf := rfl
@[simp] theorem setGst_gst (v : RunStatus) : (s.setGst v).gst = v := rfl
@[simp] theorem setGst_blk (v : RunStatus) : (s.setGst v).blk = s.blk := rfl
@[simp] theorem setGst_cur (v : RunStatus) : (s.setGst v).cur = s.cur := rfl
@[simp] theorem setGst_wt (v : RunStatus) : (s.setGst v).wt = s.wt := rfl
@[simp] theorem setGst_outbuf (v : RunStatus) : (s.setGst v).outbuf = s.outbuf := rfl
@[simp] theorem setGst_warn (v : RunStatus) : (s.setGst v).warn = s.warn := rfl
@[simp] theorem setGst_st (v : RunStatus) : (s.setGst v).st = s.st := rfl
@[simp] theorem setGst_err (v : RunStatus) : (s.setGst v).err = s.err := rfl
@[simp] theorem setGst_results (v : RunStatus) : (s.setGst v).results = s.results := rfl

@[simp] theorem setBlk_cfg (v : Nat) : (s.setBlk v).cfg = s.cfg := rfl
@[simp] theorem setBlk_start (v : Nat) : (s.setBlk v).start = s.start := rfl
@[simp] theorem setBlk_buf (v : Nat) : (s.setBlk v).buf = s.buf := rfl
@[simp] theorem setBlk_gst (v : Nat) : (s.setBlk v).gst = s.gst := rfl
@[simp] theorem setBlk_blk (v : Nat) : (s.setBlk v).blk = v := rfl
@[simp] theorem setBlk_cur (v : Nat) : (s.setBlk v).cur = s.cur := rfl
@[simp] theorem setBlk_wt (v : Nat) : (s.setBlk v).wt = s.wt := rfl
@[simp] theorem setBlk_outbuf (v : Nat) : (s.setBlk v).outbuf = s.outbuf := rfl
@[simp] theorem setBlk_warn (v : Nat) : (s.setBlk v).warn = s.warn := rfl
@[simp] theorem setBlk_st (v : Nat) : (s.setBlk v).st = s.st := rfl
@[simp] theorem setBlk_err (v : Nat) : (s.setBlk v).err = s.err := rfl
@[simp] theorem setBlk_results (v : Nat) : (s.setBlk v).results = s.results := rfl

@[simp] theorem setCur_cfg (v : Nat) : (s.setCur v).cfg = s.cfg := rfl
@[simp] theorem setCur_start (v : Nat) : (s.setCur v).start = s.start := rfl
@[simp] theorem setCur_buf (v : Nat) : (s.setCur v).buf = s.buf := rfl
@[simp] theorem setCur_gst (v : Nat) : (s.setCur v).gst = s.gst := rfl
@[simp] theorem setCur_blk (v : Nat) : (s.setCur v).blk = s.blk := rfl
@[simp] theorem setCur_cur (v : Nat) : (s.setCur v).cur = v := rfl
@[simp] theorem setCur_wt (v : Nat) : (s.setCur v).wt = s.wt := rfl
@[simp] theorem setCur_outbuf (v : Nat) : (s.setCur v).outbuf = s.outbuf := rfl
@[simp] theorem setCur_warn (v : Nat) : (s.setCur v).warn = s.warn := rfl
@[simp] theorem setCur_st (v : Nat) : (s.setCur v).st = s.st := rfl
@[simp] theorem setCur_err (v : Nat) : (s.setCur v).err = s.err := rfl
@[simp] theorem setCur_results (v : Nat) : (s.setCur v).results = s.results := rfl

@[simp] theorem setWt_cfg (v : Option Token) : (s.setWt v).cfg = s.cfg := rfl
@[simp] theorem setWt_start (v : Option Token) : (s.setWt v).start = s.start := rfl
@[simp] theorem setWt_buf (v : Option Token) : (s.setWt v).buf = s.buf := rfl
@[simp] theorem setWt_gst (v : Option Token) : (s.setWt v).gst = s.gst := rfl
@[simp] theorem setWt_blk (v : Option Token) : (s.setWt v).blk = s.blk := rfl
@[simp] theorem setWt_cur (v : Option Token) : (s.setWt v).cur = s.cur := rfl
@[simp] theorem setWt_wt (v : Option Token) : (s.setWt v).wt = v := rfl
@[simp] theorem setWt_outbuf (v : Option Token) : (s.setWt v).outbuf = s.outbuf := rfl
@[simp] theorem setWt_warn (v : Option Token) : (s.setWt v).warn = s.warn := rfl
@[simp] theorem setWt_st (v : Option Token) : (s.setWt v).st = s.st := rfl
@[simp] theorem setWt_err (v : Option Token) : (s.setWt v).err = s.err := rfl
@[simp] theorem setWt_results (v : Option Token) : (s.setWt v).results = s.results := rfl

@[simp] theorem setOutbuf_cfg (v : List Token) : (s.setOutbuf v).cfg = s.cfg := rfl
@[simp] theorem setOutbuf_start (v : List Token) : (s.setOutbuf v).start = s.start := rfl
@[simp] theorem setOutbuf_buf (v : List Token) : (s.setOutbuf v).buf = s.buf := rfl
@[simp] theorem setOutbuf_gst (v : List Token) : (s.setOutbuf v).gst = s.gst := rfl
@[simp] theorem setOutbuf_blk (v : List Token) : (s.setOutbuf v).blk = s.blk := rfl
@[simp] theorem setOutbuf_cur (v : List Token) : (s.setOutbuf v).cur = s.cur := rfl
@[simp] theorem setOutbuf_wt (v : List Token) : (s.setOutbuf v).wt = s.wt := rfl
@[simp] theorem setOutbuf_outbuf (v : List Token) : (s.setOutbuf v).outbuf = v := rfl
@[simp] theorem setOutbuf_warn (v : List Token) : (s.setOutbuf v).warn = s.warn := rfl
@[simp] theorem setOutbuf_st (v : List Token) : (s.setOutbuf v).st = s.st := rfl
@[simp] theorem setOutbuf_err (v : List Token) : (s.setOutbuf v).err = s.err := rfl
@[simp] theorem setOutbuf_results (v : List Token) : (s.setOutbuf v).results = s.results := rfl

@[simp] theorem setWarn_cfg (v : Nat) : (s.setWarn v).cfg = s.cfg := rfl
@[simp] theorem setWarn_start (v : Nat) : (s.setWarn v).start = s.start := rfl
@[simp] theorem setWarn_buf (v : Nat) : (s.setWarn v).buf = s.buf := rfl
@[simp] theorem setWarn_gst (v : Nat) : (s.setWarn v).gst = s.gst := rfl
@[simp] theorem setWarn_blk (v : Nat) : (s.setWarn v).blk = s.blk := rfl
@[simp] theorem setWarn_cur (v : Nat) : (s.setWarn v).cur = s.cur := rfl
@[simp] theorem setWarn_wt (v : Nat) : (s.setWarn v).wt = s.wt := rfl
@[simp] theorem setWarn_outbuf (v : Nat) : (s.setWarn v).outbuf = s.outbuf := rfl
@[simp] theorem setWarn_warn (v : Nat) : (s.setWarn v).warn = v := rfl
@[simp] theorem setWarn_st (v : Nat) : (s.setWarn v).st = s.st := rfl
@[simp] theorem setWarn_err (v : Nat) : (s.setWarn v).err = s.err := rfl
@[simp] theorem setWarn_results (v : Nat) : (s.setWarn v).results = s.results := rfl

@[simp] theorem setSt_cfg (v : BlockStatus) : (s.setSt v).cfg = s.cfg := rfl
@[simp] theorem setSt_start (v : BlockStatus) : (s.setSt v).start = s.start := rfl
@[simp] theorem setSt_buf (v : BlockStatus) : (s.setSt v).buf = s.buf := rfl
@[simp] theorem setSt_gst (v : BlockStatus) : (s.setSt v).gst = s.gst := rfl
@[simp] theorem setSt_blk (v : BlockStatus) : (s.setSt v).blk = s.blk := rfl
@[simp] theorem setSt_cur (v : BlockStatus) : (s.setSt v).cur = s.cur := rfl
@[simp] theorem setSt_wt (v : BlockStatus) : (s.setSt v).wt = s.wt := rfl
@[simp] theorem setSt_outbuf (v : BlockStatus) : (s.setSt v).outbuf = s.outbuf := rfl
@[simp] theorem setSt_warn (v : BlockStatus) : (s.setSt v).warn = s.warn := rfl
@[simp] theorem setSt_st (v : BlockStatus) : (s.setSt v).st = v := rfl
@[simp] theorem setSt_err (v : BlockStatus) : (s.setSt v).err = s.err := rfl
@[simp] theorem setSt_results (v : BlockStatus) : (s.setSt v).results = s.results := rfl

@[simp] theorem setErr_cfg (v : Option HardFailure) : (s.setErr v).cfg = s.cfg := rfl
@[simp] theorem setErr_start (v : Option HardFailure) : (s.setErr v).start = s.start := rfl
@[simp] theorem setErr_buf (v : Option HardFailure) : (s.setErr v).buf = s.buf := rfl
@[simp] theorem setErr_gst (v : Option HardFailure) : (s.setErr v).gst = s.gst := rfl
@[simp] theorem setErr_blk (v : Option HardFailure) : (s.setErr v).blk = s.blk := rfl
@[simp] theorem setErr_cur (v : Option HardFailure) : (s.setErr v).cur = s.cur := rfl
@[simp] theorem setErr_wt (v : Option HardFailure) : (s.setErr v).wt = s.wt := rfl
@[simp] theorem setErr_outbuf (v : Option HardFailure) : (s.setErr v).outbuf = s.outbuf := rfl
@[simp] theorem setErr_warn (v : Option HardFailure) : (s.setErr v).warn = s.warn := rfl
@[simp] theorem setErr_st (v : Option HardFailure) : (s.setErr v).st = s.st := rfl
@[simp] theorem setErr_err (v : Option HardFailure) : (s.setErr v).err = v := rfl
@[simp] theorem setErr_results (v : Option HardFailure) : (s.setErr v).results = s.results := rfl

@[simp] theorem setResults_cfg (v : List (Nat × DecodeResult)) : (s.setResults v).cfg = s.cfg := rfl
@[simp] theorem setResults_start (v : List (Nat × DecodeResult)) : (s.setResults v).start = s.start := rfl
@[simp] theorem setResults_buf (v : List (Nat × DecodeResult)) : (s.setResults v).buf = s.buf := rfl
@[simp] theorem setResults_gst (v : List (Nat × DecodeResult)) : (s.setResults v).gst = s.gst := rfl
@[simp] theorem setResults_blk (v : List (Nat × DecodeResult)) : (s.setResults v).blk = s.blk := rfl
@[simp] theorem setResults_cur (v : List (Nat × DecodeResult)) : (s.setResults v).cur = s.cur := rfl
@[simp] theorem setResults_wt (v : List (Nat × DecodeResult)) : (s.setResults v).wt = s.wt := rfl
@[simp] theorem setResults_outbuf (v : List (Nat × DecodeResult)) : (s.setResults v).outbuf = s.outbuf := rfl
@[simp] theorem setResults_warn (v : List (Nat × DecodeResult)) : (s.setResults v).warn = s.warn := rfl
@[simp] theorem setResults_st (v : List (Nat × DecodeResult)) : (s.setResults v).st = s.st := rfl
@[simp] theorem setResults_err (v : List (Nat × DecodeResult)) : (s.setResults v).err = s.err := rfl
@[simp] theorem setResults_results (v : List (Nat × DecodeResult)) : (s.setResults v).results = v := rfl

end Sys2Proof.Machine.State
end

