-- ==== Sys2Proof/Laws/Ops.lean ====
section
/-! SUPPORT. What each shared operation on the registers can do, said once. -/

namespace Sys2Proof.Machine

/-! ## The Word Reader -/

theorem nextWord_eq {s s1 : State} {w : Word} (h : nextWord s = some (w, s1)) :
    s.buf.word? (1024 * s.blk + s.cur) = some w ∧ s1 = s.setCur (s.cur + 4) := by
  unfold nextWord fetchAddr at h
  cases hw : s.buf.word? (1024 * s.blk + s.cur) with
  | none => simp [hw] at h
  | some v =>
    simp only [hw, Option.map_some, Option.some.injEq, Prod.mk.injEq] at h
    exact ⟨by rw [h.1], h.2.symm⟩

theorem nextWord_of_word {s : State} {w : Word} (h : s.buf.word? (1024 * s.blk + s.cur) = some w) :
    nextWord s = some (w, s.setCur (s.cur + 4)) := by
  simp [nextWord, fetchAddr, h]

/-! ## The merger -/

/-- The merge step is one of three cases, and in each only `WT` and `OUTBUF` are written. -/
theorem merge_cases (t : Token) (s : State) :
    (s.wt = none ∧ merge t s = s.setWt (some t)) ∨
    (∃ w, s.wt = some w ∧ t.colour = .cont ∧ merge t s = s.setWt (some ⟨w.colour, w.value ++ t.value⟩)) ∨
    (∃ w, s.wt = some w ∧ t.colour ≠ .cont ∧ merge t s = (s.setOutbuf (s.outbuf ++ [w])).setWt (some t)) := by
  unfold merge
  cases hw : s.wt with
  | none => exact .inl ⟨rfl, rfl⟩
  | some w =>
    by_cases hc : t.colour = .cont
    · exact .inr (.inl ⟨w, rfl, hc, by simp [hc]⟩)
    · exact .inr (.inr ⟨w, rfl, hc, by simp [hc]⟩)

section
variable (t : Token) (s : State)

@[simp] theorem merge_cfg : (merge t s).cfg = s.cfg := by unfold merge; split <;> [rfl; (split <;> rfl)]
@[simp] theorem merge_start : (merge t s).start = s.start := by unfold merge; split <;> [rfl; (split <;> rfl)]
@[simp] theorem merge_buf : (merge t s).buf = s.buf := by unfold merge; split <;> [rfl; (split <;> rfl)]
@[simp] theorem merge_gst : (merge t s).gst = s.gst := by unfold merge; split <;> [rfl; (split <;> rfl)]
@[simp] theorem merge_blk : (merge t s).blk = s.blk := by unfold merge; split <;> [rfl; (split <;> rfl)]
@[simp] theorem merge_cur : (merge t s).cur = s.cur := by unfold merge; split <;> [rfl; (split <;> rfl)]
@[simp] theorem merge_warn : (merge t s).warn = s.warn := by unfold merge; split <;> [rfl; (split <;> rfl)]
@[simp] theorem merge_st : (merge t s).st = s.st := by unfold merge; split <;> [rfl; (split <;> rfl)]
@[simp] theorem merge_err : (merge t s).err = s.err := by unfold merge; split <;> [rfl; (split <;> rfl)]
@[simp] theorem merge_results : (merge t s).results = s.results := by unfold merge; split <;> [rfl; (split <;> rfl)]

end

/-- The flush writes only `OUTBUF`. -/
theorem flush_eq (s : State) : flush s = s.setOutbuf (s.outbuf ++ s.wt.toList) := by
  unfold flush
  cases s.wt with
  | none => simp [State.setOutbuf]
  | some w => rfl

/-! ## Blocks and runs -/

/-- Entering Block `BLK` is its reset, or the end of the run. -/
theorem enterBlock_cases (s : State) :
    (s.blk < s.buf.blocks ∧ enterBlock s = blockReset s) ∨
    (¬ s.blk < s.buf.blocks ∧ enterBlock s = s.setGst .finished) := by
  unfold enterBlock
  by_cases h : s.blk < s.buf.blocks
  · exact .inl ⟨h, if_pos h⟩
  · exact .inr ⟨h, if_neg h⟩

section
variable (s : State)

@[simp] theorem blockReset_cfg : (blockReset s).cfg = s.cfg := rfl
@[simp] theorem blockReset_start : (blockReset s).start = s.start := rfl
@[simp] theorem blockReset_buf : (blockReset s).buf = s.buf := rfl
@[simp] theorem blockReset_gst : (blockReset s).gst = s.gst := rfl
@[simp] theorem blockReset_blk : (blockReset s).blk = s.blk := rfl
@[simp] theorem blockReset_cur : (blockReset s).cur = 0 := rfl
@[simp] theorem blockReset_wt : (blockReset s).wt = none := rfl
@[simp] theorem blockReset_outbuf : (blockReset s).outbuf = [] := rfl
@[simp] theorem blockReset_warn : (blockReset s).warn = 0 := rfl
@[simp] theorem blockReset_st : (blockReset s).st = .run := rfl
@[simp] theorem blockReset_err : (blockReset s).err = none := rfl
@[simp] theorem blockReset_results : (blockReset s).results = s.results := rfl

@[simp] theorem enterBlock_cfg : (enterBlock s).cfg = s.cfg := by unfold enterBlock; split <;> rfl
@[simp] theorem enterBlock_start : (enterBlock s).start = s.start := by unfold enterBlock; split <;> rfl
@[simp] theorem enterBlock_buf : (enterBlock s).buf = s.buf := by unfold enterBlock; split <;> rfl
@[simp] theorem enterBlock_blk : (enterBlock s).blk = s.blk := by unfold enterBlock; split <;> rfl
@[simp] theorem enterBlock_results : (enterBlock s).results = s.results := by unfold enterBlock; split <;> rfl

@[simp] theorem commit_cfg (r : DecodeResult) : (commit r s).cfg = s.cfg := rfl
@[simp] theorem commit_start (r : DecodeResult) : (commit r s).start = s.start := rfl
@[simp] theorem commit_buf (r : DecodeResult) : (commit r s).buf = s.buf := rfl
@[simp] theorem commit_gst (r : DecodeResult) : (commit r s).gst = s.gst := rfl
@[simp] theorem commit_blk (r : DecodeResult) : (commit r s).blk = s.blk := rfl
@[simp] theorem commit_cur (r : DecodeResult) : (commit r s).cur = s.cur := rfl
@[simp] theorem commit_wt (r : DecodeResult) : (commit r s).wt = s.wt := rfl
@[simp] theorem commit_outbuf (r : DecodeResult) : (commit r s).outbuf = s.outbuf := rfl
@[simp] theorem commit_warn (r : DecodeResult) : (commit r s).warn = s.warn := rfl
@[simp] theorem commit_st (r : DecodeResult) : (commit r s).st = s.st := rfl
@[simp] theorem commit_err (r : DecodeResult) : (commit r s).err = s.err := rfl
@[simp] theorem commit_results (r : DecodeResult) :
    (commit r s).results = s.results ++ [(s.start + s.blk, r)] := rfl

end

/-- Everything a hard decode failure can do: the next Block is reset, or the run is over with the failure in `ERR`. -/
theorem failBlock_cases (e : HardFailure) (s : State) :
    (s.blk + 1 < s.buf.blocks ∧
      failBlock e s = ((blockReset s).setBlk (s.blk + 1)).setResults (s.results ++ [(s.start + s.blk, .error e)])) ∨
    (¬ s.blk + 1 < s.buf.blocks ∧
      failBlock e s = ((((s.setErr (some e)).setSt .failed).setBlk (s.blk + 1)).setResults
        (s.results ++ [(s.start + s.blk, .error e)])).setGst .finished) := by
  unfold failBlock nextBlock
  rcases enterBlock_cases ((commit (.error e) ((s.setErr (some e)).setSt .failed)).setBlk
    ((commit (.error e) ((s.setErr (some e)).setSt .failed)).blk + 1)) with ⟨h, he⟩ | ⟨h, he⟩
  · exact .inl ⟨by simpa using h, by rw [he]; rfl⟩
  · exact .inr ⟨by simpa using h, by rw [he]; rfl⟩

/-- Everything the end of a Block can do. -/
theorem endBlock_cases (s : State) :
    (s.blk + 1 < s.buf.blocks ∧
      endBlock s = ((blockReset s).setBlk (s.blk + 1)).setResults
        (s.results ++ [(s.start + s.blk, .tokens (s.outbuf ++ s.wt.toList))])) ∨
    (¬ s.blk + 1 < s.buf.blocks ∧
      endBlock s = ((((s.setOutbuf (s.outbuf ++ s.wt.toList)).setSt .done).setBlk (s.blk + 1)).setResults
        (s.results ++ [(s.start + s.blk, .tokens (s.outbuf ++ s.wt.toList))])).setGst .finished) := by
  unfold endBlock nextBlock
  rw [flush_eq]
  rcases enterBlock_cases (((commit (.tokens (s.outbuf ++ s.wt.toList))
      (s.setOutbuf (s.outbuf ++ s.wt.toList))).setSt .done).setBlk (s.blk + 1)) with ⟨h, he⟩ | ⟨h, he⟩
  · exact .inl ⟨by simpa using h, by
      simp only [State.setOutbuf_outbuf, State.setSt_blk, commit_blk, State.setOutbuf_blk]; rw [he]; rfl⟩
  · exact .inr ⟨by simpa using h, by
      simp only [State.setOutbuf_outbuf, State.setSt_blk, commit_blk, State.setOutbuf_blk]; rw [he]; rfl⟩

/-- Everything the start of a run can do. -/
theorem startRun_cases (s : State) :
    (s.buf.len % 1024 = 0 ∧ 0 < s.buf.blocks ∧
      startRun s = blockReset (((s.setResults []).setBlk 0).setGst .busy)) ∨
    (s.buf.len % 1024 = 0 ∧ ¬ 0 < s.buf.blocks ∧
      startRun s = ((s.setResults []).setBlk 0).setGst .finished) ∨
    (s.buf.len % 1024 ≠ 0 ∧ startRun s = ((s.setResults []).setBlk 0).setGst .rejected) := by
  unfold startRun
  by_cases h : s.buf.len % 1024 = 0
  · rw [if_pos h]
    rcases enterBlock_cases (((s.setResults []).setBlk 0).setGst .busy) with ⟨hb, he⟩ | ⟨hb, he⟩
    · exact .inl ⟨h, hb, he⟩
    · exact .inr (.inl ⟨h, hb, by rw [he]; rfl⟩)
  · exact .inr (.inr ⟨h, if_neg h⟩)

/-- What the caller loads is canonical. -/
theorem load_buf_wf (bytes : List Byte) (start : Nat) (cfg : Config) (s : State) :
    (load bytes start cfg s).buf.wf = true := Buf.ofBytes_wf bytes

/-- Placing a word keeps the canonical form. -/
theorem placeFetchWord_buf_wf {s : State} (h : s.buf.wf = true) (nbits w : Nat) :
    (placeFetchWord s nbits w).buf.wf = true := by
  unfold placeFetchWord
  simp only [State.setSt_buf, State.setGst_buf, State.setCur_buf, State.setBuf_buf]
  exact Buf.setBytes_wf (b := placeRoom s)
    (cellsWf_len (len' := max s.buf.len (1024 * (s.blk + 1))) h (Nat.le_max_left _ _)) _ _

theorem reset_buf_wf : State.reset.buf.wf = true := rfl

end Sys2Proof.Machine
end

