-- ==== Sys2Proof/Laws/PerInstr.lean ====
section
/-! SUPPORT. For each instruction: the word the encoder gives it has the function code of its row of
spec/opcode_table.json in its low four bits (30_encoding R81). -/

namespace Sys2Proof.Laws.FunctionCode

/-- The `match` value of the instruction's row under its mask `0x0000000F`. -/
def tableCode : Instr → Nat
  | .cont0 _ => 0
  | .text1 _ => 1
  | .lnum2 _ _ => 2
  | .text3 _ => 3
  | .text4 _ => 4
  | .lnum5 _ _ => 5
  | .snum6 _ _ => 6
  | .text7 _ => 7
  | .snum8 _ _ => 8
  | .text9 _ => 9
  | .textcA _ => 10
  | .textuB _ => 11
  | .textC _ => 12
  | .snumD _ _ => 13
  | .textE _ => 14
  | .unkF _ => 15

/-- The encoded word's function code is the table's. -/
def Statement (i : Instr) : Prop := (fcode (encodeWord i)).toNat = tableCode i

theorem cont0 (p : Payload) : Statement (.cont0 p) := by simp [Statement, encodeWord, tableCode]
theorem text1 (p : Payload) : Statement (.text1 p) := by simp [Statement, encodeWord, tableCode]
theorem lnum2 (x : Field27) (h : Bool) : Statement (.lnum2 x h) := by simp [Statement, encodeWord, tableCode]
theorem text3 (p : Payload) : Statement (.text3 p) := by simp [Statement, encodeWord, tableCode]
theorem text4 (p : Payload) : Statement (.text4 p) := by simp [Statement, encodeWord, tableCode]
theorem lnum5 (x : Field27) (h : Bool) : Statement (.lnum5 x h) := by simp [Statement, encodeWord, tableCode]
theorem snum6 (m : Field27) (h : Bool) : Statement (.snum6 m h) := by simp [Statement, encodeWord, tableCode]
theorem text7 (p : Payload) : Statement (.text7 p) := by simp [Statement, encodeWord, tableCode]
theorem snum8 (m : Field27) (h : Bool) : Statement (.snum8 m h) := by simp [Statement, encodeWord, tableCode]
theorem text9 (p : Payload) : Statement (.text9 p) := by simp [Statement, encodeWord, tableCode]
theorem textcA (p : Payload) : Statement (.textcA p) := by simp [Statement, encodeWord, tableCode]
theorem textuB (p : Payload) : Statement (.textuB p) := by simp [Statement, encodeWord, tableCode]
theorem textC (p : Payload) : Statement (.textC p) := by simp [Statement, encodeWord, tableCode]
theorem snumD (m : Field27) (h : Bool) : Statement (.snumD m h) := by simp [Statement, encodeWord, tableCode]
theorem textE (p : Payload) : Statement (.textE p) := by simp [Statement, encodeWord, tableCode]
theorem unkF (x : Payload) : Statement (.unkF x) := by simp [Statement, encodeWord, tableCode]

end Sys2Proof.Laws.FunctionCode
end

