-- ==== Sys2Proof/Laws/Units.lean ====
section
/-! SUPPORT. What an instruction and a step can do, said once. -/

namespace Sys2Proof.Machine

/-- Every instruction is the dispatch of its word (40_fetch_dispatch R123). -/
theorem exec_eq_dispatch (i : Instr) (s : State) : exec i s = dispatch (encodeWord i) s := by
  cases i <;>
    simp [exec, execCont0, execText1, execLnum2, execText3, execText4, execLnum5, execSnum6, execText7, execSnum8,
      execText9, execTextcA, execTextuB, execTextC, execSnumD, execTextE, execUnkF, encodeWord, dispatch, dispatchRow,
      FTable.row]

/-- The encoder inverts the word decoder. -/
theorem encodeWord_decodeWord (w : Word) : encodeWord (decodeWord w) = w := by
  have hTU := wordTU_fields w
  have hSL := wordSL_fields w
  rcases fcode_cases (fcode w) with h | h | h | h | h | h | h | h | h | h | h | h | h | h | h | h <;>
    simp only [h] at hTU hSL <;> simpa [decodeWord, h, encodeWord]

/-- A decoded word runs as its row says (40_fetch_dispatch R123). -/
theorem exec_decodeWord (w : Word) (s : State) :
    exec (decodeWord w) s = dispatchRow (s.cfg.ftable.row (fcode w)) w s := by
  rw [exec_eq_dispatch, encodeWord_decodeWord, dispatch]

/-- A unit that answers a next state merged one token, or failed its Block. -/
theorem complete_cases {r : Except HardFailure Token} {s t : State} (h : complete r s = .next t) :
    (∃ tok, r = .ok tok ∧ t = merge tok s) ∨ (∃ e, r = .error e ∧ t = failBlock e s) := by
  cases r with
  | ok tok => exact .inl ⟨tok, rfl, by simpa [complete] using h.symm⟩
  | error e => exact .inr ⟨e, rfl, by simpa [complete] using h.symm⟩

/-- Everything a dispatch that answers a next state can have done: a text token merged or its failure taken, a number
merged, a long number's second word consumed, or a warning counted. -/
theorem dispatchRow_cases {r : FRow} {w : Word} {s t : State} (h : dispatchRow r w s = .next t) :
    (r = .unknown ∧ t = merge unknownToken (s.setWarn (s.warn + 1))) ∨
    (∃ col cat cf tok, r = .mapped col cat cf ∧ (cat = .text ∨ cat = .continuation) ∧
      textToken s.cfg.charset (s.cur - 4) col cf (payload w) = .ok tok ∧ t = merge tok s) ∨
    (∃ col cat cf e, r = .mapped col cat cf ∧ (cat = .text ∨ cat = .continuation) ∧
      textToken s.cfg.charset (s.cur - 4) col cf (payload w) = .error e ∧ t = failBlock e s) ∨
    (∃ col cf, r = .mapped col .shortNumber cf ∧ t = merge (shortToken col (field27 w) (hexFlag w)) s) ∨
    (∃ col cf w2, r = .mapped col .longNumber cf ∧ s.cur < 1024 ∧
      s.buf.word? (1024 * s.blk + s.cur) = some w2 ∧
      t = merge (longToken col (hexFlag w) w2) (s.setCur (s.cur + 4))) ∨
    (∃ col cf, r = .mapped col .longNumber cf ∧ ¬ s.cur < 1024 ∧ t = merge (longToken col (hexFlag w) 0) s) := by
  unfold dispatchRow at h
  split at h
  · exact .inl ⟨rfl, by simpa [execUnknown, complete, warnUnknown] using h.symm⟩
  · rename_i col cf
    rcases complete_cases h with ⟨tok, hr, ht⟩ | ⟨e, hr, ht⟩
    · exact .inr (.inl ⟨col, .text, cf, tok, rfl, .inl rfl, hr, ht⟩)
    · exact .inr (.inr (.inl ⟨col, .text, cf, e, rfl, .inl rfl, hr, ht⟩))
  · rename_i col cf
    rcases complete_cases h with ⟨tok, hr, ht⟩ | ⟨e, hr, ht⟩
    · exact .inr (.inl ⟨col, .continuation, cf, tok, rfl, .inr rfl, hr, ht⟩)
    · exact .inr (.inr (.inl ⟨col, .continuation, cf, e, rfl, .inr rfl, hr, ht⟩))
  · rename_i col cf
    exact .inr (.inr (.inr (.inl ⟨col, cf, rfl, by simpa [execShort, complete] using h.symm⟩)))
  · rename_i col cf
    unfold execLong hasNext at h
    by_cases hc : s.cur < 1024
    · simp only [hc, decide_true, if_true] at h
      cases hn : nextWord s with
      | none => simp [hn] at h
      | some r =>
        obtain ⟨w2, s1⟩ := r
        obtain ⟨hw, hs⟩ := nextWord_eq hn
        simp only [hn, complete, Host.Outcome.next.injEq] at h
        exact .inr (.inr (.inr (.inr (.inl ⟨col, cf, w2, rfl, hc, hw, by rw [← h, hs]⟩))))
    · simp only [hc, decide_false, complete] at h
      exact .inr (.inr (.inr (.inr (.inr ⟨col, cf, rfl, hc, by simpa using h.symm⟩))))

/-- Everything a step that answers a next state can have done: started a run, run one decoded word, ended a Block. -/
theorem step_cases {s t : State} (h : step s = .next t) :
    (s.gst = .idle ∧ t = startRun s) ∨
    (∃ w, s.gst = .busy ∧ s.blk < s.buf.blocks ∧ s.st = .run ∧ s.cur < 1024 ∧
      s.buf.word? (1024 * s.blk + s.cur) = some w ∧ exec (decodeWord w) (s.setCur (s.cur + 4)) = .next t) ∨
    (s.gst = .busy ∧ s.blk < s.buf.blocks ∧ s.st = .run ∧ ¬ s.cur < 1024 ∧ t = endBlock s) := by
  unfold step at h
  split at h
  · rename_i hg
    exact .inl ⟨hg, by simpa using h.symm⟩
  · rename_i hg
    split at h
    · rename_i hb
      by_cases hc : s.cur < 1024
      · simp only [hasNext, hc, decide_true, if_true] at h
        cases hn : nextWord s with
        | none => simp [hn] at h
        | some r =>
          obtain ⟨w, s1⟩ := r
          obtain ⟨hw, hs⟩ := nextWord_eq hn
          simp only [hn] at h
          exact .inr (.inl ⟨w, hg, hb.1, hb.2, hc, hw, by rw [← hs]; exact h⟩)
      · simp only [hasNext, hc, decide_false] at h
        exact .inr (.inr ⟨hg, hb.1, hb.2, hc, by simpa using h.symm⟩)
    · simp at h
  · simp at h
  · simp at h

/-- A step of a running Block runs the word at the cursor. -/
theorem step_of_word {s : State} {w : Word} (hg : s.gst = .busy) (hb : s.blk < s.buf.blocks) (hr : s.st = .run)
    (hc : s.cur < 1024) (hw : s.buf.word? (1024 * s.blk + s.cur) = some w) :
    step s = exec (decodeWord w) (s.setCur (s.cur + 4)) := by
  simp [step, hg, hb, hr, hasNext, hc, nextWord_of_word hw]

/-- A step at the end of a running Block ends it. -/
theorem step_at_end {s : State} (hg : s.gst = .busy) (hb : s.blk < s.buf.blocks) (hr : s.st = .run)
    (hc : ¬ s.cur < 1024) : step s = .next (endBlock s) := by
  simp [step, hg, hb, hr, hasNext, hc]

/-- The word at an aligned cursor of a Block of the buffer exists. -/
theorem word_exists {s : State} (hb : s.blk < s.buf.blocks) (ha : s.cur % 4 = 0) (hc : s.cur < 1024) :
    ∃ w, s.buf.word? (1024 * s.blk + s.cur) = some w := by
  apply Buf.word?_isSome
  have : 1024 * (s.buf.len / 1024) ≤ s.buf.len := Nat.mul_div_le _ _
  have : s.blk + 1 ≤ s.buf.len / 1024 := hb
  have : 1024 * (s.blk + 1) ≤ 1024 * (s.buf.len / 1024) := Nat.mul_le_mul_left _ this
  omega

/-! ## Runs -/

theorem run_zero (s : State) : core.run 0 s = .next s := rfl

/-- A run whose first step answers a next state goes on from there. -/
theorem run_succ {s t : State} (h : step s = .next t) (n : Nat) : core.run (n + 1) s = core.run n t := by
  have hc : core.step s = .next t := h
  simp only [Host.Core.run, hc]

/-- The first step of a loaded machine is the start of the run. -/
theorem step_load (bytes : List Byte) (start : Nat) (cfg : Config) (s : State) :
    step (load bytes start cfg s) = .next (startRun (load bytes start cfg s)) := rfl

end Sys2Proof.Machine
end

