-- ==== Sys2Proof/Tests/Slice0.lean ====
section
/-! SUPPORT. Tests: the well-formedness checks refuse what they should, words written out from the encodings decode to
their instructions, single steps give what spec/95_test_vectors.md computes, and every statement's hypotheses are met. -/

namespace Sys2Proof.Tests

open Sys2Proof Sys2Proof.Machine

/-! ## Well-formedness: each check accepts the reference and refuses an ill-formed term -/

theorem test_reference_config_wf : referenceConfig.wf = true := by decide
theorem test_reference_charset_full : referenceCharSet.full = true := by decide
theorem test_reset_buffer_wf : State.reset.buf.wf = true := by decide

/-- A table like the reference one but without code 127 (95_test_vectors, failure vector and P4 b). -/
def holeCharSet : CharSet := ⟨referenceCharSet.entries.filter (·.1 ≠ 127)⟩

theorem test_hole_wf_not_full : holeCharSet.wf = true ∧ holeCharSet.full = false := by decide

theorem test_refuses_code_outside_domain :
    CharSet.domainOk ⟨[(0, ' '), (8, 'x')]⟩ = false ∧ CharSet.wf ⟨referenceChars4 ++ [(8, 'x')]⟩ = false ∧
    CharSet.domainOk ⟨[(24, 'x')]⟩ = false ∧ CharSet.domainOk ⟨[(95, 'x')]⟩ = false ∧
    CharSet.domainOk ⟨[(128, 'x')]⟩ = false := by decide

theorem test_refuses_two_characters_for_a_code :
    CharSet.risingFrom 0 [(0, ' '), (0, 'r')] = false ∧
    CharSet.wf ⟨referenceChars4 ++ [(7, 'i')]⟩ = false := by decide

theorem test_refuses_other_character_at_code_zero :
    CharSet.spaceOk ⟨[(0, '_')]⟩ = false ∧ CharSet.wf ⟨(0, '_') :: referenceChars4.tail⟩ = false := by decide

theorem test_refuses_missing_letter :
    CharSet.lettersOk ⟨referenceChars4.dropLast⟩ = false ∧ CharSet.wf ⟨referenceChars4.dropLast⟩ = false := by decide

theorem test_refuses_config : Config.wf ⟨⟨[]⟩, referenceFTable⟩ = false := by decide

/-- A cell past `LEN`, a zero cell, cells out of order, an address twice. -/
theorem test_refuses_buffers :
    Buf.wf ⟨4, [(4, 1)]⟩ = false ∧ Buf.wf ⟨4, [(1, 0)]⟩ = false ∧ Buf.wf ⟨4, [(2, 1), (1, 1)]⟩ = false ∧
    Buf.wf ⟨4, [(1, 1), (1, 2)]⟩ = false ∧ Buf.wf ⟨4, [(1, 1), (3, 2)]⟩ = true := by decide

theorem test_refuses_fewer_than_four_bytes : decode [0x79, 0x56, 0x34] = .error .truncated := rfl

/-! ## Decoding: words written out from spec/opcode_table.json, code in bits 3:0 -/

theorem test_decode_cont0 : decodeWord 0b0011000100101100100000000000_0000#32 = .cont0 0x312C800#28 := by decide
theorem test_decode_text1 : decodeWord 0b0000010000000011000000100000_0001#32 = .text1 0x0403020#28 := by decide
theorem test_decode_lnum2 : decodeWord 0b111111111111111111111111111_0_0010#32 = .lnum2 0x7FFFFFF#27 false := by decide
theorem test_decode_text3 : decodeWord 0b1000011001111100110010100010_0011#32 = .text3 0x867CCA2#28 := by decide
theorem test_decode_text4 : decodeWord 0b1100000110011011000100000000_0100#32 = .text4 0xC19B100#28 := by decide
theorem test_decode_lnum5 : decodeWord 0b000000000000000000000000000_1_0101#32 = .lnum5 0#27 true := by decide
theorem test_decode_snum6 : decodeWord 0b000000000000000000000000011_0_0110#32 = .snum6 3#27 false := by decide
theorem test_decode_text7 : decodeWord 0b1000010111010111000100000000_0111#32 = .text7 0x85D7100#28 := by decide
theorem test_decode_snum8 : decodeWord 0b000000000000011000111110101_1_1000#32 = .snum8 12789#27 true := by decide
theorem test_decode_text9 : decodeWord 0b0001001000110100010101100111_1001#32 = .text9 0x1234567#28 := by decide
theorem test_decode_textcA : decodeWord 0b0101010101010101010101010101_1010#32 = .textcA 0x5555555#28 := by decide
theorem test_decode_textuB : decodeWord 0b0001110101011000001101010000_1011#32 = .textuB 0x1D58350#28 := by decide
theorem test_decode_textC : decodeWord 0b1100101000000000000000000000_1100#32 = .textC 0xCA00000#28 := by decide
theorem test_decode_snumD : decodeWord 0b000000000000000000001000000_1_1101#32 = .snumD 0x40#27 true := by decide
theorem test_decode_textE : decodeWord 0b1001000010000000000000000000_1110#32 = .textE 0x9080000#28 := by decide
theorem test_decode_unkF : decodeWord 0b1111111111111111111111111111_1111#32 = .unkF 0xFFFFFFF#28 := by decide

/-- V-F1: the first stored byte is the least significant. -/
theorem test_bytes_of_a_word : wordOfBytes 0x01 0x02 0x03 0x04 = 0x04030201 := by decide

/-- V-F2: the bytes of S4, and the bytes after the word. -/
theorem test_decode_bytes : decode [0x79, 0x56, 0x34, 0x12, 0xAA] = .ok (.text9 0x1234567#28, [0xAA]) := rfl

/-- A long number's table word has 64 bits; the first word is the low half. -/
theorem test_decode_table_word_of_long : decodeTableWord 64 0xC000000000000002 = some (.lnum2 0 false) := by decide

/-! ## One step -/

/-- A running Block, the only one of the buffer, with the given cursor and bytes. -/
def blockAt (cur : Nat) (cells : List Host.Cell) : State :=
  ((State.reset.setBuf ⟨1024, cells⟩).setGst .busy).setCur cur

/-- The same with two Blocks, `BLK` being 0. -/
def twoBlocksAt (cur : Nat) (cells : List Host.Cell) : State :=
  ((State.reset.setBuf ⟨2048, cells⟩).setGst .busy).setCur cur

/-- The working token after a step. -/
def wtAfter (r : Result) : Option Token :=
  match r with
  | .next s => s.wt
  | _ => none

/-- The cursor and the warning count after a step. -/
def countsAfter (r : Result) : Option (Nat × Nat) :=
  match r with
  | .next s => some (s.cur, s.warn)
  | _ => none

/-- The raw token of a word at the start of a Block, as the working token it becomes. -/
def rawOf (nbits w : Nat) : Option Token := wtAfter (step (State.reset.withFetchWord nbits w))

/-- A mapped token. -/
def tok (h : Hue) (v : String) : Option Token := some ⟨.hue h, v.toList⟩

/-! The dispatch vectors of 95_test_vectors section 2: word `0x0000002f` with `f` the function code. -/

theorem test_step_cont0 : rawOf 32 0x20 = some ⟨.cont, ['t']⟩ := by decide
theorem test_step_text1 : rawOf 32 0x21 = tok .yellow "t" := by decide
theorem test_step_lnum2 : rawOf 64 0x0000000700000022 = tok .yellow "#7" := by decide
theorem test_step_text3 : rawOf 32 0x23 = tok .red "t" := by decide
theorem test_step_text4 : rawOf 32 0x24 = tok .green "t" := by decide
theorem test_step_lnum5 : rawOf 64 0x1234ABCD00000015 = tok .green "$1234abcd" := by decide
theorem test_step_snum6 : rawOf 32 0x26 = tok .green "#1" := by decide
theorem test_step_text7 : rawOf 32 0x27 = tok .cyan "t" := by decide
theorem test_step_snum8 : rawOf 32 0x28 = tok .yellow "#1" := by decide
theorem test_step_text9 : rawOf 32 0x29 = tok .white "t" := by decide
theorem test_step_textcA : rawOf 32 0x2A = tok .white "T" := by decide
theorem test_step_textuB : rawOf 32 0x2B = tok .white "T" := by decide
theorem test_step_textC : rawOf 32 0x2C = tok .magenta "t" := by decide
theorem test_step_snumD : rawOf 32 0x2D = tok .silver "#1" := by decide
theorem test_step_textE : rawOf 32 0x2E = tok .blue "t" := by decide
theorem test_step_unkF : rawOf 32 0x2F = some ⟨.unk, ['?', '?', '?']⟩ := by decide

/-- V-M1: a continuation is appended. -/
theorem test_continuation_appends :
    wtAfter (step ((blockAt 4 [(5, 0x80), (6, 0x2C), (7, 0x31)]).setWt (tok .white "colorf"))) =
      tok .white "colorforth" := by decide

/-- V-T20: a 4-bit code cut to three bits. -/
theorem test_text_cut_code : rawOf 32 0xAAAAAAA9 = tok .white "gaaaaae" := by decide

/-- V-T34: a 7-bit code cut to two bits. -/
theorem test_text_cut_to_two : rawOf 32 0xC1804473 = tok .red "ddrrrd" := by decide

/-- V-T18: the bit left over is ignored. -/
theorem test_text_spare_bit : rawOf 32 0x3124C814 = tok .green "orteh" := by decide

/-- V-T29: the first emitted character is capitalized, not the skipped space. -/
theorem test_capitalize_after_space : rawOf 32 0x0120000A = tok .white "Rt" := by decide

/-- V-T28: upper-casing leaves digits. -/
theorem test_upper_with_digits : rawOf 32 0x1D58350B = tok .white "R2D2" := by decide

/-- S5: a number's bits under code 0xC are text. -/
theorem test_magenta_number_is_text : rawOf 32 0xAC = tok .magenta "l" := by decide

/-- S3: bits of the second word alone, sign included, and both words consumed. -/
theorem test_long_negative : rawOf 64 0xC000000000000002 = tok .yellow "#-1073741824" ∧
    countsAfter (step (State.reset.withFetchWord 64 0xC000000000000002)) = some (8, 0) := by decide

/-- V-N26 on LNUM.5 [D6]. -/
theorem test_long_negative_hex : rawOf 64 0xDEADBEEF00000015 = tok .green "$-21524111" := by decide

/-- S7: a long number at offset 1020. -/
theorem test_long_at_the_end : wtAfter (step (blockAt 1020 [(1020, 0x12)])) = tok .yellow "$0" ∧
    countsAfter (step (blockAt 1020 [(1020, 0x12)])) = some (1024, 0) := by decide

/-- V-N7: the least short number. -/
theorem test_short_least : rawOf 32 0x80000008 = tok .yellow "#-67108864" := by decide

/-- V-N4 on SNUM.6. -/
theorem test_short_minus_one : rawOf 32 0xFFFFFFE6 = tok .green "#-1" := by decide

/-- V-N8 on SNUM.D: the greatest short number, lower case. -/
theorem test_short_greatest_hex : rawOf 32 0x7FFFFFFD = tok .silver "$3ffffff" := by decide

/-- P5: an unknown word counts one warning. -/
theorem test_unknown_warns : countsAfter (step (State.reset.withFetchWord 32 0xFFFFFFFF)) = some (4, 1) := by decide

/-- 92_eei_decisions D4: the row decides what an open code does; here LNUM.5's is a cyan text row. -/
theorem test_open_row_decides :
    wtAfter (step ((blockAt 0 [(0, 0x25)]).setCfg
      ⟨referenceCharSet, { referenceFTable with row5 := .text .cyan }⟩)) = tok .cyan "t" := by decide

/-- P4 b: code 127 at bit 17 of the word at offset 0 fails a Block under the table with a hole. -/
theorem test_bad_code_recorded :
    unpack holeCharSet 0 0xBE49FF0 = .error (.badCharCode 127 17 0) := rfl

/-- S1: what the lengths 0, 1024 and 1025 lead to. -/
theorem test_run_start :
    startRun State.reset = State.reset.setGst .finished ∧
    startRun (State.reset.setBuf ⟨1024, []⟩) = (State.reset.setBuf ⟨1024, []⟩).setGst .busy ∧
    startRun (State.reset.setBuf ⟨1025, []⟩) = (State.reset.setBuf ⟨1025, []⟩).setGst .rejected := by decide

/-! ## Witnesses: states and operands that meet the hypotheses of the statements -/

/-- The bytes of S4's word at offset 0 and at the last word of a Block. -/
def cells4 (a : Nat) : List Host.Cell := [(a, 0x79), (a + 1, 0x56), (a + 2, 0x34), (a + 3, 0x12)]

theorem witness_WordIsLittleEndian :
    (let b : Buf := ⟨1024, cells4 0⟩
     b.get? 0 = some 0x79 ∧ b.get? 1 = some 0x56 ∧ b.get? 2 = some 0x34 ∧ b.get? 3 = some 0x12) ∧
    (let b : Buf := ⟨1024, cells4 1020⟩
     b.get? 1020 = some 0x79 ∧ b.get? 1021 = some 0x56 ∧ b.get? 1022 = some 0x34 ∧ b.get? 1023 = some 0x12) := by
  decide

theorem witness_BufferAndConfigNeverWritten :
    (∃ t, step (blockAt 0 (cells4 0)) = .next t) ∧ ∃ t, exec (.text9 0x1234567) (blockAt 4 (cells4 0)) = .next t :=
  ⟨⟨_, rfl⟩, ⟨_, rfl⟩⟩

theorem witness_DecodeInvertsEncode : (Instr.lnum2 0x7FFFFFF true).wf = true ∧ (Instr.unkF 0).wf = true := by decide

theorem witness_SettledRowsHold :
    referenceFTable.row 0 = .mapped .cont .continuation .none ∧
    referenceFTable.row 0xA = .mapped (.hue .white) .text .cap ∧
    referenceFTable.row 0xE = .mapped (.hue .blue) .text .none := by decide

theorem witness_RowSelectsOperation :
    let s := blockAt 1020 (cells4 1020)
    let h := (blockAt 1024 []).setCfg ⟨holeCharSet, referenceFTable⟩
    s.cfg.ftable.row (fcode 0xFFFFFFFF) = .unknown ∧
    (s.cfg.ftable.row (fcode 0x12345679) = .mapped (.hue .white) .text .none ∧
      unpack s.cfg.charset (s.cur - 4) (payload 0x12345679) = .ok "rtoeani".toList) ∧
    (h.cfg.ftable.row (fcode 0xFE000000) = .mapped .cont .continuation .none ∧
      unpack h.cfg.charset (h.cur - 4) (payload 0xFE000000) = .error (.badCharCode 127 0 1020)) ∧
    s.cfg.ftable.row (fcode 0x28) = .mapped (.hue .yellow) .shortNumber .none ∧
    (s.cfg.ftable.row (fcode 0x25) = .mapped (.hue .green) .longNumber .none ∧
      s.cur < 1024 ∧ s.buf.word? (1024 * s.blk + s.cur) = some 0x12345679) ∧
    (h.cfg.ftable.row (fcode 0x22) = .mapped (.hue .yellow) .longNumber .none ∧ 1024 ≤ h.cur) :=
  ⟨by decide, ⟨by decide, rfl⟩, ⟨by decide, rfl⟩, by decide, by decide, by decide⟩

theorem witness_FixedTextWordsComplete :
    unpack (blockAt 4 []).cfg.charset ((blockAt 4 []).cur - 4) 0xFFFFFFF = .ok "????".toList := rfl

theorem witness_CasedTextWordsComplete :
    unpack (blockAt 4 []).cfg.charset ((blockAt 4 []).cur - 4) 0 = .ok [] ∧
    unpack (blockAt 4 []).cfg.charset ((blockAt 4 []).cur - 4) 0x0120000 = .ok ['r', 't'] := ⟨rfl, rfl⟩

theorem witness_OpenTextWordsComplete :
    unpack (blockAt 4 []).cfg.charset ((blockAt 4 []).cur - 4) 0x1000000 = .ok ['r'] ∧
    referenceFTable.row1 = .text .yellow ∧ referenceFTable.row3 = .text .red ∧
    referenceFTable.row4 = .text .green ∧ referenceFTable.row7 = .text .cyan ∧
    referenceFTable.rowE = .text .blue := ⟨rfl, by decide, by decide, by decide, by decide, by decide⟩

/-- Whole codes of each length, and a last code of which two bits are left. -/
theorem witness_CodeBitsComeFromPayload :
    ⟨0, 1⟩ ∈ codesOf 0x1000000 ∧ ⟨0, 16⟩ ∈ codesOf 0x8000000 ∧ ⟨21, 127⟩ ∈ codesOf 0xFFFFFFF ∧
    ⟨26, 96⟩ ∈ codesOf 0xC180447 := by decide

theorem witness_CodeSequenceShape :
    0 + 1 < (codesOf 0xFFFFFFF).length ∧ (codesOf 0xFFFFFFF).length = 4 ∧ (codesOf 0).length = 7 ∧
    (codesOf 0xC180447).getLast? = some ⟨26, 96⟩ := by decide

/-- Five 5-bit codes and a 7-bit code cut to its first three bits; and no code at all. -/
theorem witness_PackedCodesReadBack :
    (let codes := [16, 17, 18, 19, 20, 96]
     (∀ c ∈ codes, inCharDomain c = true) ∧ (codes ≠ [] → packedBits codes.dropLast ≤ 26) ∧
     (∀ c, codes.getLast? = some c → c % 2 ^ (packedBits codes - 28) = 0)) ∧
    (let codes : List Nat := []
     (∀ c ∈ codes, inCharDomain c = true) ∧ (codes ≠ [] → packedBits codes.dropLast ≤ 26) ∧
     (∀ c, codes.getLast? = some c → c % 2 ^ (packedBits codes - 28) = 0)) := by
  refine ⟨⟨by decide, by decide, ?_⟩, ⟨by decide, by decide, by simp⟩⟩
  intro c h
  obtain rfl : 96 = c := by simpa using h
  decide

/-- V-T17 and V-T18. -/
theorem witness_SpareBitIgnored :
    (codesOf 0x3124C80).getLast? = some ⟨23, 0⟩ ∧ 23 + codeBits 0 = 27 ∧
    ∀ j, 0 < j → (0x3124C80#28).getLsbD j = (0x3124C81#28).getLsbD j := by
  refine ⟨by decide, by decide, fun j hj => ?_⟩
  rcases Nat.lt_or_ge j 28 with h | h
  · interval_cases j <;> decide
  · rw [BitVec.getLsbD_of_ge _ _ h, BitVec.getLsbD_of_ge _ _ h]

theorem witness_FirstUndefinedCodeReported :
    unpack holeCharSet 1020 0xFE00000 = .error (.badCharCode 127 0 1020) := rfl

theorem witness_DefinedCodesGiveText :
    (codesOf 0x50C6000).map (fun c => referenceCharSet.char? c.code) =
      ['a', ' ', 'b', ' ', ' ', ' '].map some := by decide

theorem witness_FullTableNeverFails : referenceCharSet.full = true := by decide

theorem witness_CasePolicyActsOnLetters :
    (97 ≤ 'a'.toNat ∧ 'a'.toNat ≤ 122) ∧ (97 ≤ 'z'.toNat ∧ 'z'.toNat ≤ 122) ∧
    ¬ (97 ≤ '`'.toNat ∧ '`'.toNat ≤ 122) ∧ ¬ (97 ≤ '|'.toNat ∧ '|'.toNat ≤ 122) := by decide

theorem witness_TwosComplementValue :
    (1 ≤ 1 ∧ 1 < 2 ^ 1 ∧ ¬ 1 < 2 ^ (1 - 1)) ∧ (1 ≤ 32 ∧ 0x7FFFFFFF < 2 ^ 32 ∧ 0x7FFFFFFF < 2 ^ (32 - 1)) := by decide

theorem witness_TwosComplementInverts :
    (1 ≤ 27 ∧ 0x4000000 < 2 ^ 27) ∧
    (1 ≤ 1 ∧ -(2 : Int) ^ (1 - 1) ≤ -1 ∧ (-1 : Int) ≤ (2 : Int) ^ (1 - 1) - 1) ∧
    (1 ≤ 27 ∧ -(2 : Int) ^ (27 - 1) ≤ 67108863 ∧ (67108863 : Int) ≤ (2 : Int) ^ (27 - 1) - 1) := by decide

theorem witness_Digits : (0 : Nat) = 0 ∧ (1 : Nat) ≠ 0 ∧ '9' ∈ dec 9 ∧ 'f' ∈ hexl 15 := by decide

theorem witness_Rendering : (0 : Int) ≤ 0 ∧ (-1 : Int) < 0 := by decide

theorem witness_ShortNumbersComplete :
    (blockAt 4 []).cfg.ftable.row6 = .short .green ∧ (blockAt 4 []).cfg.ftable.rowD = .short .silver := by decide

theorem witness_LongNumbersTakeSecondWord :
    let s := blockAt 1020 (cells4 1020)
    s.cur < 1024 ∧ s.buf.word? (1024 * s.blk + s.cur) = some 0x12345679 ∧ s.cfg.ftable.row5 = .long .green := by decide

theorem witness_LongNumberWithoutSecondWord :
    let s := blockAt 1020 [(1020, 0x12)]
    s.gst = .busy ∧ s.blk < s.buf.blocks ∧ s.st = .run ∧ s.cur = 1020 ∧
    s.buf.word? (1024 * s.blk + 1020) = some 0x12 ∧
    s.cfg.ftable.row (fcode 0x12) = .mapped (.hue .yellow) .longNumber .none := by decide

/-- V-N29's words at the last place where two words fit. -/
theorem witness_SecondWordIsData :
    let s := blockAt 1016 [(1016, 0x02), (1020, 0x09)]
    s.gst = .busy ∧ s.blk < s.buf.blocks ∧ s.st = .run ∧ s.cur % 4 = 0 ∧ s.cur < 1020 ∧
    s.buf.word? (1024 * s.blk + s.cur) = some 0x02 ∧ s.buf.word? (1024 * s.blk + s.cur + 4) = some 0x09 ∧
    s.cfg.ftable.row (fcode 0x02) = .mapped (.hue .yellow) .longNumber .none := by decide

/-- V-N27's bytes there. -/
theorem witness_LongNumberBytesRun :
    let s := blockAt 1016 [(1016, 0xE2), (1017, 0xFF), (1018, 0xFF), (1019, 0xFF), (1020, 0x07)]
    s.gst = .busy ∧ s.blk < s.buf.blocks ∧ s.st = .run ∧ s.cur % 4 = 0 ∧ s.cur < 1020 ∧
    ∀ i, i < 8 → s.buf.get? (1024 * s.blk + s.cur + i) =
      (encode (.lnum2 0x7FFFFFF false) ++ leBytes 4 (7#32).toNat)[i]? := by decide

theorem witness_UnknownWordWarns : State.reset.cfg.ftable.rowF = .unknown := by decide

theorem witness_IgnoredBitsHaveNoEffect :
    (fcode 0xF = fcode 0xFFFFFFFF ∧ State.reset.cfg.ftable.row (fcode 0xF) = .unknown) ∧
    (fcode 0x2 = fcode 0xFFFFFFE2 ∧ hexFlag 0x2 = hexFlag 0xFFFFFFE2 ∧
      State.reset.cfg.ftable.row (fcode 0x2) = .mapped (.hue .yellow) .longNumber .none) := by decide

theorem witness_MergeStep :
    State.reset.wt = none ∧ (State.reset.setWt (tok .red "a")).wt = some ⟨.hue .red, ['a']⟩ ∧
    (Token.mk .cont ['b']).colour = .cont ∧ (Token.mk .unk ['b']).colour ≠ .cont := by decide

/-- At the last word of a Block, without a working token and with one. -/
theorem witness_ContinuationAppendsOrLeads :
    unpack (blockAt 1024 []).cfg.charset ((blockAt 1024 []).cur - 4) 0x1000000 = .ok ['r'] ∧
    (blockAt 1024 []).wt = none ∧ ((blockAt 1024 []).setWt (tok .yellow "#5")).wt = tok .yellow "#5" :=
  ⟨rfl, by decide, by decide⟩

theorem witness_ZeroWordChangesNothing :
    State.reset.cfg.charset.char? 0 = some ' ' ∧ (State.reset.setWt (tok .red "a")).wt = tok .red "a" := by decide

theorem witness_StreamingFoldIsBatchFold : State.reset.wt = none ∧ State.reset.outbuf = [] := by decide

theorem witness_StepRunsDecodedInstruction :
    let s := blockAt 1020 (cells4 1020)
    s.gst = .busy ∧ s.blk < s.buf.blocks ∧ s.st = .run ∧ s.cur < 1024 ∧
    s.buf.get? (1024 * s.blk + s.cur) = some 0x79 ∧ s.buf.get? (1024 * s.blk + s.cur + 1) = some 0x56 ∧
    s.buf.get? (1024 * s.blk + s.cur + 2) = some 0x34 ∧ s.buf.get? (1024 * s.blk + s.cur + 3) = some 0x12 ∧
    decode [0x79, 0x56, 0x34, 0x12] = .ok (.text9 0x1234567, []) :=
  ⟨by decide, by decide, by decide, by decide, by decide, by decide, by decide, by decide, rfl⟩

theorem witness_PlacedWordRunsNext :
    State.reset.buf.wf = true ∧ decodeTableWord 32 0x12345679 = some (.text9 0x1234567) ∧
    decodeTableWord 64 0xC000000000000002 = some (.lnum2 0 false) := by decide

theorem witness_RunStartAcceptsOrRejects :
    (State.reset.gst = .idle ∧ State.reset.buf.len = 0) ∧
    ((State.reset.setBuf ⟨1023, []⟩).gst = .idle ∧ (State.reset.setBuf ⟨1023, []⟩).buf.len % 1024 ≠ 0) ∧
    ((State.reset.setBuf ⟨1024, []⟩).gst = .idle ∧ (State.reset.setBuf ⟨1024, []⟩).buf.len % 1024 = 0 ∧
      (State.reset.setBuf ⟨1024, []⟩).buf.len ≠ 0) := by decide

/-- From IDLE, and at the end of the first of two Blocks. -/
theorem witness_BlockStartsReset :
    (∃ t, step (State.reset.setBuf ⟨1024, []⟩) = .next t ∧ t.gst = .busy ∧ (State.reset.setBuf ⟨1024, []⟩).gst = .idle) ∧
    (∃ t, step ((twoBlocksAt 1024 []).setWt (tok .red "a")) = .next t ∧ t.gst = .busy ∧
      t.blk ≠ ((twoBlocksAt 1024 []).setWt (tok .red "a")).blk) :=
  ⟨⟨_, rfl, by decide, by decide⟩, ⟨_, rfl, by decide, by decide⟩⟩

/-- The end of the first of two Blocks, and of the last. -/
theorem witness_BlockEndCommitsTokens :
    (let s := (twoBlocksAt 1024 []).setWt (tok .red "a")
     s.gst = .busy ∧ s.blk < s.buf.blocks ∧ s.st = .run ∧ s.cur = 1024 ∧ s.wt = some ⟨.hue .red, ['a']⟩ ∧
     s.blk + 1 < s.buf.blocks) ∧
    (let s := (blockAt 1024 []).setWt (tok .red "a")
     s.gst = .busy ∧ s.blk < s.buf.blocks ∧ s.st = .run ∧ s.cur = 1024 ∧ s.wt = some ⟨.hue .red, ['a']⟩ ∧
     s.blk + 1 = s.buf.blocks) := by decide

/-- P4 b's word in the first of two Blocks, and as a continuation in the last. -/
theorem witness_BadCodeFailsBlock :
    (let s := (twoBlocksAt 4 []).setCfg ⟨holeCharSet, referenceFTable⟩
     s.cfg.ftable.row (fcode (encodeWord (.text9 0xBE49FF0))) = .mapped (.hue .white) .text .none ∧
     unpack s.cfg.charset (s.cur - 4) (payload (encodeWord (.text9 0xBE49FF0))) = .error (.badCharCode 127 17 0) ∧
     s.blk + 1 < s.buf.blocks) ∧
    (let s := (blockAt 1024 []).setCfg ⟨holeCharSet, referenceFTable⟩
     s.cfg.ftable.row (fcode (encodeWord (.cont0 0xFE00000))) = .mapped .cont .continuation .none ∧
     unpack s.cfg.charset (s.cur - 4) (payload (encodeWord (.cont0 0xFE00000))) = .error (.badCharCode 127 0 1020) ∧
     ¬ s.blk + 1 < s.buf.blocks) :=
  ⟨⟨by decide, rfl, by decide⟩, ⟨by decide, rfl, by decide⟩⟩

/-- A unit that emits the old working token, and one that takes a second word. -/
theorem witness_CompletedUnitFrame :
    (∃ t, exec (.text9 0x1234567) ((blockAt 4 []).setWt (tok .red "a")) = .next t ∧
      t.blk = ((blockAt 4 []).setWt (tok .red "a")).blk) ∧
    (∃ t, exec (.lnum2 0 true) (blockAt 1020 []) = .next t ∧ t.blk = (blockAt 1020 []).blk) ∧
    (∃ t, exec (.unkF 0) (blockAt 1024 []) = .next t ∧ t.blk = (blockAt 1024 []).blk) :=
  ⟨⟨_, rfl, by decide⟩, ⟨_, rfl, by decide⟩, ⟨_, rfl, by decide⟩⟩

theorem witness_EveryInstructionAnswersNext :
    let s := blockAt 1020 []
    s.buf.len % 1024 = 0 ∧ s.blk < s.buf.blocks ∧ s.cur % 4 = 0 := by decide

theorem witness_RunOverHasNoStep :
    (State.reset.setGst .finished).gst = .finished ∧ (State.reset.setGst .rejected).gst = .rejected := by decide

/-- A state inside a Block that meets the invariant. -/
theorem witness_inv_inside_block : Inv ((blockAt 4 []).setWt (tok .red "a")) := by
  refine ⟨by decide, ⟨by decide, by decide⟩, ⟨by decide, by decide⟩, ?_, ?_, ?_, fun _ => ⟨?_, by decide, by decide, by decide, ?_, ?_, ?_⟩⟩
  · exact ⟨fun h => by simp [blockAt, State.reset, State.setBuf, State.setGst, State.setCur, State.setWt] at h,
      fun h => by simp [blockAt, State.reset, State.setBuf, State.setGst, State.setCur, State.setWt] at h⟩
  · exact ⟨by decide, by decide, by decide, by unfold Numbered; decide⟩
  · exact fun r hr => by simp [blockAt, State.reset, State.setBuf, State.setGst, State.setCur, State.setWt] at hr
  · exact ⟨fun h => by simp [tok, State.setWt] at h, fun h => by simp [blockAt, State.setCur, State.setWt] at h⟩
  · exact fun _ _ _ => by decide
  · intro w hw
    obtain rfl : Token.mk (.hue .red) ['a'] = w := by simpa [tok, State.setWt] using hw
    decide
  · decide

theorem witness_StepKeepsInvariant :
    ∃ t, Inv ((blockAt 4 []).setWt (tok .red "a")) ∧ step ((blockAt 4 []).setWt (tok .red "a")) = .next t :=
  ⟨_, witness_inv_inside_block, rfl⟩

theorem witness_BusyStepProgresses :
    Inv ((blockAt 4 []).setWt (tok .red "a")) ∧ ((blockAt 4 []).setWt (tok .red "a")).gst = .busy :=
  ⟨witness_inv_inside_block, by decide⟩

theorem witness_RunYieldsOneResultPerBlock :
    ([] : List Byte).length = 1024 * 0 ∧ (List.replicate 2048 (0xFF : Byte)).length = 1024 * 2 :=
  ⟨rfl, List.length_replicate ..⟩

theorem witness_RunMatchesDecoder : (List.replicate 1024 (0 : Byte)).length = 1024 * 1 :=
  List.length_replicate ..

/-- Two machines with different numbers of Blocks at equal Blocks. -/
theorem witness_BlockDependsOnItsBytesOnly :
    SameBlock (blockAt 1020 []) (twoBlocksAt 1020 []) ∧ ∃ s', step (blockAt 1020 []) = .next s' := by
  refine ⟨⟨by decide, by decide, by decide, by decide, by decide, by decide, by decide, by decide, by decide,
    by decide, by decide, by decide, by decide, fun o ho => ?_⟩, ⟨_, rfl⟩⟩
  have h1 : o < 2048 := by omega
  simp [blockAt, twoBlocksAt, State.reset, State.setBuf, State.setGst, State.setCur, Buf.get?, ho, h1]

theorem witness_StartOnlyNumbersResults :
    ∃ s', step ((blockAt 1024 []).setWt (tok .red "a")) = .next s' := ⟨_, rfl⟩

end Sys2Proof.Tests
end

/-! ## 00_scope R12: a running machine goes on, a run that is over does not -/

namespace Sys2Proof.Machine

/-! ### Block number and buffer when a Block is left -/

section
variable (s : State)

@[simp] theorem nextBlock_blk : (nextBlock s).blk = s.blk + 1 := by simp [nextBlock]
@[simp] theorem nextBlock_buf : (nextBlock s).buf = s.buf := by simp [nextBlock]

@[simp] theorem failBlock_blk (e : HardFailure) : (failBlock e s).blk = s.blk + 1 := by simp [failBlock]
@[simp] theorem failBlock_buf (e : HardFailure) : (failBlock e s).buf = s.buf := by simp [failBlock]

@[simp] theorem endBlock_blk : (endBlock s).blk = s.blk + 1 := by simp [endBlock, flush_eq]
@[simp] theorem endBlock_buf : (endBlock s).buf = s.buf := by simp [endBlock, flush_eq]

end

/-! ### Units always answer -/

/-- Merging a token and failing the Block both give a next state. -/
theorem complete_answers (r : Except HardFailure Token) (s : State) : ∃ t, complete r s = .next t := by
  cases r with
  | ok tok => exact ⟨merge tok s, rfl⟩
  | error e => exact ⟨failBlock e s, rfl⟩

/-- A long number finds its second word wherever its Block has room for one. -/
theorem execLong_answers {s : State} (hb : s.blk < s.buf.blocks) (ha : s.cur % 4 = 0) (col : Colour) (h : Bool) :
    ∃ t, execLong col h s = .next t := by
  by_cases hc : s.cur < 1024
  · obtain ⟨w2, hw⟩ := word_exists hb ha hc
    simpa [execLong, hasNext, hc, nextWord_of_word hw] using complete_answers _ _
  · simpa [execLong, hasNext, hc] using complete_answers _ _

/-- No row of `FTABLE` stops the machine at an aligned cursor of a Block of the buffer. -/
theorem dispatchRow_answers {s : State} (hb : s.blk < s.buf.blocks) (ha : s.cur % 4 = 0) (r : FRow) (w : Word) :
    ∃ t, dispatchRow r w s = .next t := by
  cases r with
  | unknown => exact complete_answers (.ok unknownToken) (warnUnknown s)
  | mapped col cat cf =>
    cases cat with
    | text => exact complete_answers _ _
    | continuation => exact complete_answers _ _
    | shortNumber => exact complete_answers (.ok (shortToken col (field27 w) (hexFlag w))) s
    | longNumber => exact execLong_answers hb ha col _

/-! ### Where a unit leaves the machine -/

/-- A unit goes to the next Block, or stays in its own without moving the cursor back. -/
theorem dispatchRow_advances {r : FRow} {w : Word} {s t : State} (h : dispatchRow r w s = .next t) :
    t.buf = s.buf ∧ (t.blk = s.blk + 1 ∨ t.blk = s.blk ∧ s.cur ≤ t.cur) := by
  rcases dispatchRow_cases h with ⟨_, rfl⟩ | ⟨_, _, _, _, _, _, _, rfl⟩ | ⟨_, _, _, _, _, _, _, rfl⟩ |
    ⟨_, _, _, rfl⟩ | ⟨_, _, _, _, _, _, rfl⟩ | ⟨_, _, _, _, rfl⟩ <;> simp

/-- A step of a running Block at an aligned cursor answers, goes to the next Block or moves the cursor on. -/
theorem step_advances {s : State} (hg : s.gst = .busy) (hb : s.blk < s.buf.blocks) (hr : s.st = .run)
    (ha : s.cur % 4 = 0) :
    ∃ t, step s = .next t ∧ t.buf = s.buf ∧ (t.blk = s.blk + 1 ∨ t.blk = s.blk ∧ s.cur < t.cur) := by
  by_cases hc : s.cur < 1024
  · obtain ⟨w, hw⟩ := word_exists hb ha hc
    have hstep := (step_of_word hg hb hr hc hw).trans (exec_decodeWord w _)
    obtain ⟨t, ht⟩ := dispatchRow_answers (s := s.setCur (s.cur + 4)) hb
      (by simpa using ha) ((s.setCur (s.cur + 4)).cfg.ftable.row (fcode w)) w
    obtain ⟨hbuf, hpos⟩ := dispatchRow_advances ht
    refine ⟨t, hstep.trans ht, hbuf, hpos.imp_right fun ⟨hblk, hcur⟩ => ⟨hblk, ?_⟩⟩
    rw [State.setCur_cur] at hcur
    omega
  · exact ⟨endBlock s, step_at_end hg hb hr hc, endBlock_buf s, .inl (endBlock_blk s)⟩

/-- Settles O49: the invariant puts a BUSY machine at an aligned cursor of a running Block, where a step advances. -/
theorem busyStepProgresses : Obligations.BusyStepProgresses := by
  intro s hinv hg
  obtain ⟨_, ⟨ha, _⟩, _, _, hrun, _, _⟩ := hinv
  obtain ⟨_, hb, hr, _⟩ : s.buf.len % 1024 = 0 ∧ s.blk < s.buf.blocks ∧ s.st = .run ∧ Numbered s s.blk := by
    simpa only [RunOk, hg] using hrun
  obtain ⟨t, ht, hbuf, hpos⟩ := step_advances hg hb hr ha
  refine ⟨t, ht, ?_, ?_⟩
  · exact hpos.imp (fun hblk => by omega) fun ⟨hblk, hcur⟩ => ⟨hblk.symm, hcur⟩
  · rw [hbuf]
    omega

/-! ### A run that is over -/

theorem step_of_finished {s : State} (hg : s.gst = .finished) : step s = .fault .runFinished := by
  simp [step, hg]

theorem step_of_rejected {s : State} (hg : s.gst = .rejected) : step s = .fault .runRejected := by
  simp [step, hg]

/-- Settles O46: each of the two ends of a run is a fault of its own. -/
theorem runOverHasNoStep : Obligations.RunOverHasNoStep :=
  fun _ => ⟨step_of_finished, step_of_rejected⟩

end Sys2Proof.Machine

/-! ## 10_state: the frame of a unit that completes, and the invariant -/

namespace Sys2Proof.Machine

/-! ### Text words: at most seven characters, and which failures there are -/

/-- The code read where two bits remain is in the domain of the Charset Table (41_text R171). -/
theorem codeValue_inCharDomain (p : Payload) {pos : Nat} (h : 28 - pos ≥ 2) :
    inCharDomain (codeValue p pos) = true := by
  have htop := codeValue_top p h
  have hlt := codeValue_lt p pos
  have hpfx : payloadBits p pos 2 < 4 := payloadBits_lt p pos 2
  simp only [inCharDomain, Bool.or_eq_true, Bool.and_eq_true, decide_eq_true_eq]
  rcases codeLength_cases (payloadBits p pos 2) with ⟨hp, hl⟩ | ⟨hp, hl⟩ | ⟨hp, hl⟩ <;>
    rw [hl] at htop hlt <;> omega

/-- Every code but the last takes four bits or more, so a word has no more codes than fit (41_text R170). -/
theorem codesFrom_length_le (p : Payload) (fuel pos : Nat) : (codesFrom p fuel pos).length ≤ (28 - pos + 2) / 4 := by
  induction fuel generalizing pos with
  | zero => exact Nat.zero_le _
  | succ fuel ih =>
    by_cases hp : 28 - pos ≥ 2
    · have htail := ih (pos + codeTake p pos)
      have htake : min 4 (28 - pos) ≤ codeTake p pos :=
        min_le_min_right _ (codeLength_bounds (payloadBits p pos 2)).1
      rw [codesFrom_step p fuel hp, List.length_cons]
      omega
    · simp [codesFrom_stop p _ hp]

/-- The unpacker's failure names one of the codes it was given. -/
theorem lookupCodes_error {cs : CharSet} {off : Nat} {l : List PackedCode} {e : HardFailure}
    (h : lookupCodes cs off l = .error e) : ∃ c ∈ l, e = .badCharCode c.code c.pos off := by
  induction l with
  | nil => simp at h
  | cons c rest ih =>
    rw [lookupCodes_cons] at h
    cases hc : cs.char? c.code with
    | none =>
      simp only [hc, Except.error.injEq] at h
      exact ⟨c, List.mem_cons_self, h.symm⟩
    | some ch =>
      cases hr : lookupCodes cs off rest with
      | ok str => simp [hc, hr, Except.map] at h
      | error e' =>
        obtain rfl : e' = e := by simpa [hc, hr, Except.map] using h
        obtain ⟨d, hd, he⟩ := ih hr
        exact ⟨d, List.mem_cons_of_mem c hd, he⟩

/-- A text token has at most seven characters. -/
theorem textToken_length_le {cs : CharSet} {off : Nat} {col : Colour} {cf : CaseFlag} {p : Payload} {tok : Token}
    (h : textToken cs off col cf p = .ok tok) : tok.value.length ≤ 7 := by
  unfold textToken unpack at h
  cases hu : lookupCodes cs off (codesOf p) with
  | error e => simp [hu, Except.map] at h
  | ok str =>
    obtain rfl : ⟨col, applyCase cf str⟩ = tok := by simpa [hu, Except.map] using h
    have hcodes : (codesOf p).length ≤ 7 := codesFrom_length_le p 14 0
    have hstr := lookupCodes_length hu
    rw [applyCase_length]
    omega

/-- The failure of a text word is a result a Block can have (60_exceptions R272). -/
theorem textToken_error_resultOk {cs : CharSet} {off : Nat} {col : Colour} {cf : CaseFlag} {p : Payload}
    {e : HardFailure} (h : textToken cs off col cf p = .error e) (hal : off % 4 = 0) (hoff : off ≤ 1020) :
    ResultOk (.error e) := by
  unfold textToken unpack at h
  cases hu : lookupCodes cs off (codesOf p) with
  | ok str => simp [hu, Except.map] at h
  | error e' =>
    obtain rfl : e' = e := by simpa [hu, Except.map] using h
    obtain ⟨c, hc, rfl⟩ := lookupCodes_error hu
    obtain ⟨_, hpos, hcode⟩ := mem_codesFrom hc
    refine ⟨?_, hpos, hal, hoff⟩
    rw [hcode]
    exact codeValue_inCharDomain p (by omega)

/-! ### The length of a number's text -/

/-- A number below `b ^ (k + 1)` has at most `k + 1` digits in base `b`. -/
theorem digits_length_le {b : Nat} (hb : 2 ≤ b) {k n : Nat} (h : n < b ^ (k + 1)) :
    (digits b n).length ≤ k + 1 := by
  induction k generalizing n with
  | zero => simp [digits_small (show n < b by simpa using h)]
  | succ k ih =>
    by_cases hn : n < b
    · simp [digits_small hn]
    · have hq : n / b < b ^ (k + 1) := Nat.div_lt_of_lt_mul (by rwa [Nat.pow_succ'] at h)
      simpa [digits_large hb hn] using ih hq

/-- The text of a number is its base sign, at most a minus sign, and digits. -/
theorem render_length_le (h : Bool) {n : Int} {k : Nat} (hn : n.natAbs < 10 ^ (k + 1)) :
    (render h n).length ≤ k + 3 := by
  have hdec : (dec n.natAbs).length ≤ k + 1 := digits_length_le (by omega) hn
  have hhex : (hexl n.natAbs).length ≤ k + 1 :=
    digits_length_le (by omega) (hn.trans_le (Nat.pow_le_pow_left (by omega) _))
  cases n with
  | ofNat m =>
    rw [Int.ofNat_eq_natCast, Int.natAbs_natCast] at hdec hhex
    cases h <;> simp only [render, List.length_cons] <;> omega
  | negSucc m =>
    rw [Int.natAbs_negSucc, Nat.succ_eq_add_one] at hdec hhex
    cases h <;> simp only [render, List.length_cons] <;> omega

/-- A `w`-bit number is no larger than `2 ^ (w - 1)`. -/
theorem tc_natAbs_le (v w : Nat) : (tc v w).natAbs ≤ 2 ^ (w - 1) := by
  have hmod : v % 2 ^ (w - 1) < 2 ^ (w - 1) := Nat.mod_lt _ (Nat.two_pow_pos _)
  unfold tc
  split <;> omega

theorem shortToken_length (col : Colour) (m : Field27) (h : Bool) : (shortToken col m h).value.length ≤ 10 :=
  render_length_le h (k := 7) ((tc_natAbs_le m.toNat 27).trans_lt (by decide))

theorem longToken_length (col : Colour) (h : Bool) (w2 : Word) : (longToken col h w2).value.length ≤ 12 :=
  render_length_le h (k := 9) ((tc_natAbs_le w2.toNat 32).trans_lt (by decide))

theorem longToken_zero_length (col : Colour) (h : Bool) : (longToken col h 0).value.length ≤ 3 :=
  render_length_le h (k := 0) (by decide)

/-! ### Only code 0 has the continuation's colour -/

theorem openRow_colour_ne_cont (o : OpenRow) (cat : Category) (cf : CaseFlag) : o.toRow ≠ .mapped .cont cat cf := by
  cases o <;> simp [OpenRow.toRow]

/-- A row in the continuation's colour is a continuation (30_encoding R86). -/
theorem row_cont_category {ft : FTable} {f : FCode} {cat : Category} {cf : CaseFlag}
    (h : ft.row f = .mapped .cont cat cf) : cat = .continuation := by
  rcases fcode_cases f with rfl | hf
  · simp only [FTable.row, BitVec.ofNat_eq_ofNat, BitVec.toNat_ofNat, Nat.zero_mod, FRow.mapped.injEq] at h
    exact h.2.1.symm
  · rcases hf with rfl | rfl | rfl | rfl | rfl | rfl | rfl | rfl | rfl | rfl | rfl | rfl | rfl | rfl | rfl <;>
      simp [FTable.row, openRow_colour_ne_cont] at h

/-! ### What a unit does to the registers -/

/-- How far a unit moves the cursor past its first word, which ended at `c`: over a long number's second word where
the Block has one (42_number R196, R197). -/
def secondWordBytes (r : FRow) (c : Nat) : Nat := if c < 1024 ∧ isLongRow r = true then 4 else 0

/-- How many warnings a unit counts (40_fetch_dispatch R124). -/
def unitWarnings (r : FRow) : Nat := if r = .unknown then 1 else 0

/-- The machine at the end of a unit that does not fail, before its token is merged. -/
def unitEnd (r : FRow) (s : State) : State :=
  (s.setCur (s.cur + secondWordBytes r s.cur)).setWarn (s.warn + unitWarnings r)

theorem secondWordBytes_cases (r : FRow) (c : Nat) :
    secondWordBytes r c = 0 ∨ secondWordBytes r c = 4 ∧ c < 1024 := by
  unfold secondWordBytes
  split
  · rename_i h
    exact .inr ⟨rfl, h.1⟩
  · exact .inl rfl

theorem unitWarnings_le_one (r : FRow) : unitWarnings r ≤ 1 := by
  unfold unitWarnings
  split <;> omega

theorem secondWordBytes_of_not_long {r : FRow} (h : isLongRow r = false) (c : Nat) : secondWordBytes r c = 0 := by
  simp [secondWordBytes, h]

/-- Where a unit ends whose first word ended at `c`. -/
theorem unitEnd_setCur (r : FRow) (s : State) (c : Nat) : unitEnd r (s.setCur c) =
    (s.setCur (c + secondWordBytes r c)).setWarn (s.warn + unitWarnings r) := rfl

/-- A unit that takes no second word leaves the cursor as it is. -/
theorem unitEnd_of_one_word {r : FRow} {s : State} (hcur : secondWordBytes r s.cur = 0) :
    unitEnd r s = s.setWarn (s.warn + unitWarnings r) := by
  rw [unitEnd, hcur]
  rfl

/-- A unit whose row is mapped, and that takes no second word, leaves the warning count too. -/
theorem unitEnd_eq_self {r : FRow} {s : State} (hcur : secondWordBytes r s.cur = 0) (hwarn : r ≠ .unknown) :
    unitEnd r s = s := by
  rw [unitEnd_of_one_word hcur, unitWarnings, if_neg hwarn]
  rfl

/-- The longest raw token of a unit of `n` words: ten characters from one word, twelve from two, and seven where it is
a continuation (41_text R155, 42_number R193, R194; log 17). -/
def RawTokenFits (tok : Token) (n : Nat) : Prop :=
  tok.value.length ≤ 7 * n + 3 ∧ (tok.colour = .cont → tok.value.length ≤ 7)

/-- Every dispatch that answers a next state merged a token of bounded length at the unit's end, or failed its Block
for a bad character code. -/
theorem dispatch_cases {w : Word} {s t : State} (h : dispatch w s = .next t) :
    (∃ tok, RawTokenFits tok (1 + secondWordBytes (s.cfg.ftable.row (fcode w)) s.cur / 4) ∧
      t = merge tok (unitEnd (s.cfg.ftable.row (fcode w)) s)) ∨
    (∃ col cf e, textToken s.cfg.charset (s.cur - 4) col cf (payload w) = .error e ∧ t = failBlock e s) := by
  have hcont {col : Colour} {cat : Category} {cf : CaseFlag}
      (hr : s.cfg.ftable.row (fcode w) = .mapped col cat cf) (hcat : cat ≠ .continuation) : col ≠ .cont := by
    rintro rfl
    exact hcat (row_cont_category hr)
  rcases dispatchRow_cases h with ⟨hr, rfl⟩ | ⟨col, cat, cf, tok, hr, hcat, htok, rfl⟩ |
    ⟨col, cat, cf, e, hr, hcat, he, rfl⟩ | ⟨col, cf, hr, rfl⟩ | ⟨col, cf, w2, hr, hc, hw, rfl⟩ | ⟨col, cf, hr, hc, rfl⟩
  · refine .inl ⟨unknownToken, ⟨by simp [unknownToken, sentinel], by simp [unknownToken]⟩, ?_⟩
    rw [unitEnd_of_one_word (secondWordBytes_of_not_long (by rw [hr]; rfl) _), hr]
    rfl
  · have hlen := textToken_length_le htok
    have hlong : isLongRow (s.cfg.ftable.row (fcode w)) = false := by
      rcases hcat with rfl | rfl <;> rw [hr] <;> rfl
    refine .inl ⟨tok, ⟨by omega, fun _ => hlen⟩, ?_⟩
    rw [unitEnd_eq_self (secondWordBytes_of_not_long hlong _) (by simp [hr])]
  · exact .inr ⟨col, cf, e, he, rfl⟩
  · have hlen := shortToken_length col (field27 w) (hexFlag w)
    refine .inl ⟨shortToken col (field27 w) (hexFlag w),
      ⟨by omega, fun hcol => absurd hcol (hcont hr (by decide))⟩, ?_⟩
    rw [unitEnd_eq_self (secondWordBytes_of_not_long (by rw [hr]; rfl) _) (by simp [hr])]
  · have hlen := longToken_length col (hexFlag w) w2
    have hbytes : secondWordBytes (s.cfg.ftable.row (fcode w)) s.cur = 4 := by
      simp [secondWordBytes, hc, hr, isLongRow]
    refine .inl ⟨longToken col (hexFlag w) w2, ⟨by omega, fun hcol => absurd hcol (hcont hr (by decide))⟩, ?_⟩
    rw [unitEnd, hbytes, hr]
    rfl
  · have hlen := longToken_zero_length col (hexFlag w)
    refine .inl ⟨longToken col (hexFlag w) 0, ⟨by omega, fun hcol => absurd hcol (hcont hr (by decide))⟩, ?_⟩
    rw [unitEnd_eq_self (by simp [secondWordBytes, hc]) (by simp [hr])]

/-- After a merge there is a working token, and at most the old one was emitted (43_merge_block R231). -/
theorem merge_wt_outbuf (tok : Token) (s : State) : (merge tok s).wt ≠ none ∧
    ((merge tok s).outbuf = s.outbuf ∨ ∃ w, s.wt = some w ∧ (merge tok s).outbuf = s.outbuf ++ [w]) := by
  rcases merge_cases tok s with ⟨_, hm⟩ | ⟨_, _, _, hm⟩ | ⟨w, hw, _, hm⟩ <;> rw [hm]
  · simp
  · simp
  · exact ⟨by simp, .inr ⟨w, hw, rfl⟩⟩

/-- Settles O44: a unit that stays in its Block did not fail, so it merged its token at the unit's end. -/
theorem completedUnitFrame : Obligations.CompletedUnitFrame := by
  intro i s t h hblk
  rw [exec_eq_dispatch] at h
  rcases dispatch_cases h with ⟨tok, _, rfl⟩ | ⟨_, _, _, _, rfl⟩
  · obtain ⟨hwt, hout⟩ := merge_wt_outbuf tok (unitEnd (s.cfg.ftable.row (fcode (encodeWord i))) s)
    refine ⟨?_, ?_, ?_, ?_, fun a => ?_, ?_, ?_, ?_, ?_, hwt, hout⟩ <;>
      simp [unitEnd, secondWordBytes, unitWarnings]
  · rw [failBlock_blk] at hblk
    omega

/-! ### Between two Blocks -/

/-- What the invariant says of a BUSY machine where a Block is left or entered: all but what it says of the tokens
inside the Block. -/
structure BlockBoundary (s : State) : Prop where
  buf_wf : s.buf.wf = true
  cursor : CursorOk s
  counts : CountsOk s
  err : ErrOk s
  gst : s.gst = .busy
  len : s.buf.len % 1024 = 0
  blk : s.blk ≤ s.buf.blocks
  numbered : Numbered s s.blk
  results : ResultsOk s

/-- A reset Block has consumed no word. -/
theorem blockOk_blockReset (s : State) : BlockOk (blockReset s) := by
  simp [BlockOk]

/-- The next Block's reset and the end of the run both meet the invariant (43_merge_block R239). -/
theorem inv_enterBlock {s : State} (h : BlockBoundary s) : Inv (enterBlock s) := by
  rcases enterBlock_cases s with ⟨hb, he⟩ | ⟨hb, he⟩ <;> rw [he]
  · have hrun : RunOk (blockReset s) := by
      simpa only [RunOk, blockReset_gst, h.gst] using ⟨h.len, hb, rfl, h.numbered⟩
    exact ⟨h.buf_wf, ⟨rfl, by simp⟩, ⟨by simp, by simp⟩, by simp [ErrOk], hrun, h.results,
      fun _ => blockOk_blockReset s⟩
  · exact ⟨h.buf_wf, h.cursor, h.counts, h.err, ⟨h.len, Nat.le_antisymm h.blk (Nat.le_of_not_lt hb), h.numbered⟩,
      h.results, fun hg => by simp at hg⟩

/-- A commit adds the Block's own number (43_merge_block R243). -/
theorem numbered_commit {s : State} (h : Numbered s s.blk) (r : DecodeResult) :
    Numbered (commit r s) (s.blk + 1) := by
  unfold Numbered at h ⊢
  simp [h, List.range_succ]

/-- A Block left with a result it can have leaves the invariant true. -/
theorem inv_nextBlock_commit {s : State} {r : DecodeResult} (h : BlockBoundary s) (hb : s.blk < s.buf.blocks)
    (hr : ResultOk r) : Inv (nextBlock (commit r s)) := by
  refine inv_enterBlock ⟨h.buf_wf, h.cursor, h.counts, h.err, h.gst, h.len, hb, numbered_commit h.numbered r, ?_⟩
  intro x hx
  rw [State.setBlk_results, commit_results, List.mem_append, List.mem_singleton] at hx
  rcases hx with hx | rfl
  · exact h.results x hx
  · exact hr

/-- Taking a failure a Block can have keeps the invariant, from wherever in the Block it is taken. -/
theorem inv_failBlock {s : State} {e : HardFailure} (h : BlockBoundary s) (hb : s.blk < s.buf.blocks)
    (he : ResultOk (.error e)) : Inv (failBlock e s) :=
  inv_nextBlock_commit (s := (s.setErr (some e)).setSt .failed)
    ⟨h.buf_wf, h.cursor, h.counts, by simp [ErrOk], h.gst, h.len, h.blk, h.numbered, h.results⟩ hb he

/-! ### The start of a run -/

theorem inv_startRun {s : State} (h : Inv s) : Inv (startRun s) := by
  obtain ⟨hwf, hcur, hcounts, herr, -, -, -⟩ := h
  unfold startRun
  split
  · rename_i hlen
    exact inv_enterBlock ⟨hwf, hcur, hcounts, herr, rfl, hlen, Nat.zero_le _, rfl, fun _ hr => by simp at hr⟩
  · rename_i hlen
    exact ⟨hwf, hcur, hcounts, herr, ⟨hlen, rfl⟩, fun _ hr => by simp at hr, fun hg => by simp at hg⟩

/-! ### Inside a Block -/

/-- The invariant of a BUSY machine, taken apart. -/
theorem Inv.of_busy {s : State} (h : Inv s) (hg : s.gst = .busy) :
    BlockBoundary s ∧ s.blk < s.buf.blocks ∧ s.st = .run ∧ BlockOk s := by
  obtain ⟨hwf, hcur, hcounts, herr, hrun, hres, hblock⟩ := h
  obtain ⟨hlen, hblk, hst, hnum⟩ : s.buf.len % 1024 = 0 ∧ s.blk < s.buf.blocks ∧ s.st = .run ∧ Numbered s s.blk := by
    simpa only [RunOk, hg] using hrun
  exact ⟨⟨hwf, hcur, hcounts, herr, hg, hlen, hblk.le, hnum, hres⟩, hblk, hst, hblock hg⟩

/-- What holds inside a running Block is the invariant. -/
theorem inv_of_blockOk {s : State} (h : BlockBoundary s) (hb : s.blk < s.buf.blocks) (hr : s.st = .run)
    (hblock : BlockOk s) : Inv s := by
  have hrun : RunOk s := by simpa only [RunOk, h.gst] using ⟨h.len, hb, hr, h.numbered⟩
  exact ⟨h.buf_wf, h.cursor, h.counts, h.err, hrun, h.results, fun _ => hblock⟩

/-- The counts stay in their bounds because each word adds at most one token and one warning. -/
theorem BlockOk.countsOk {s : State} (h : BlockOk s) (hc : s.cur ≤ 1024) : CountsOk s := by
  obtain ⟨-, hout, hwarn, -⟩ := h
  exact ⟨by omega, by omega⟩

/-- Emitting the working token keeps continuations out of all but the first place (43_merge_block R234). -/
theorem BlockOk.tail_emit {s : State} {w : Token} (h : BlockOk s) (hw : s.wt = some w) :
    ∀ t ∈ (s.outbuf ++ [w]).tail, t.colour ≠ .cont := by
  obtain ⟨-, -, -, htail, hlead, -, -⟩ := h
  cases ho : s.outbuf with
  | nil => simp
  | cons x xs =>
    have hwc : w.colour ≠ .cont := fun hc => by simpa [ho] using hlead w hw hc
    rw [ho, List.tail_cons] at htail
    simpa [or_imp, forall_and, hwc] using htail

/-- The working token is never longer than the longest merged token (log 17). -/
theorem BlockOk.value_emit {s : State} {w : Token} (h : BlockOk s) (hw : s.wt = some w) (hc : s.cur ≤ 1024) :
    ∀ t ∈ s.outbuf ++ [w], t.value.length ≤ maxValueLength := by
  obtain ⟨-, -, -, -, -, hval, hmax⟩ := h
  have hwlen : w.value.length ≤ maxValueLength := by
    have := hval w hw
    unfold maxValueLength
    omega
  simpa [or_imp, forall_and, hwlen] using hmax

/-- Merging the token of a unit that ends at `c` keeps what holds inside a Block. -/
theorem blockOk_merge {s : State} {tok : Token} {c n : Nat} (h : BlockOk s) (hcur : s.cur ≤ 1024)
    (hc : s.cur + 4 ≤ c) (hn : n ≤ s.warn + 1) (htok : RawTokenFits tok ((c - s.cur) / 4)) :
    BlockOk (merge tok ((s.setCur c).setWarn n)) := by
  have ⟨hwt, hout, hwarn, htail, hlead, hval, hmax⟩ := h
  obtain ⟨hlen, hcont⟩ := htok
  have hpos : c ≠ 0 := by omega
  have hwarn' : n ≤ c / 4 := by omega
  have hlen' : tok.value.length ≤ 7 * (c / 4) + 3 := by omega
  rcases merge_cases tok ((s.setCur c).setWarn n) with ⟨hw, hm⟩ | ⟨w, hw, hcol, hm⟩ | ⟨w, hw, hcol, hm⟩ <;>
    rw [hm] <;> rw [State.setWarn_wt, State.setCur_wt] at hw
  · have hzero : s.cur = 0 := hwt.mp hw
    have hnil : s.outbuf = [] := List.length_eq_zero_iff.mp (by omega)
    have hfirst : 1 ≤ c / 4 := by omega
    exact ⟨by simpa using hpos, by simpa [hnil] using hfirst, hwarn', htail, fun _ _ _ => hnil,
      by simpa using hlen', hmax⟩
  · have hout' : s.outbuf.length + 1 ≤ c / 4 := by
      simp only [hw, Option.isSome_some, if_true] at hout
      omega
    have hlonger : w.value.length + tok.value.length ≤ 7 * (c / 4) + 3 := by
      have := hval w hw
      have := hcont hcol
      omega
    exact ⟨by simpa using hpos, by simpa using hout', hwarn', htail, by simpa using hlead w hw,
      by simpa using hlonger, hmax⟩
  · have hout' : s.outbuf.length + 1 + 1 ≤ c / 4 := by
      simp only [hw, Option.isSome_some, if_true] at hout
      omega
    exact ⟨by simpa using hpos, by simpa using hout', hwarn', h.tail_emit hw, by simp [hcol],
      by simpa using hlen', h.value_emit hw hcur⟩

/-- The end of a Block keeps the invariant: the flushed tokens are a result a Block can have (43_merge_block R237). -/
theorem inv_endBlock {s : State} (h : Inv s) (hg : s.gst = .busy) (hc : ¬ s.cur < 1024) : Inv (endBlock s) := by
  obtain ⟨hbound, hblk, hst, hblock⟩ := h.of_busy hg
  have hcur : s.cur ≤ 1024 := hbound.cursor.2
  obtain ⟨w, hw⟩ : ∃ w, s.wt = some w :=
    Option.ne_none_iff_exists'.mp fun hnone => by have := hblock.1.mp hnone; omega
  have hlen : (s.outbuf ++ [w]).length ≤ 256 := by
    have hout := hblock.2.1
    simp only [hw, Option.isSome_some, if_true] at hout
    rw [List.length_append, List.length_singleton]
    omega
  have hresult : ResultOk (.tokens (s.outbuf ++ [w])) :=
    ⟨by simp, hlen, hblock.tail_emit hw, hblock.value_emit hw hcur⟩
  have herr : ErrOk ((s.setOutbuf (s.outbuf ++ [w])).setSt .done) := by
    simpa [ErrOk, hst] using hbound.err
  have heq : endBlock s =
      nextBlock (commit (.tokens (s.outbuf ++ [w])) ((s.setOutbuf (s.outbuf ++ [w])).setSt .done)) := by
    simp only [endBlock, flush_eq, hw]
    rfl
  rw [heq]
  exact inv_nextBlock_commit ⟨hbound.buf_wf, hbound.cursor, ⟨hlen, hbound.counts.2⟩, herr, hg, hbound.len, hblk.le,
    hbound.numbered, hbound.results⟩ hblk hresult

/-- Merging a unit's token at an aligned cursor of the Block keeps the invariant. -/
theorem inv_merge {s : State} {tok : Token} {c n : Nat} (h : Inv s) (hg : s.gst = .busy) (hmore : s.cur + 4 ≤ c)
    (hal : c % 4 = 0) (hle : c ≤ 1024) (hn : n ≤ s.warn + 1) (htok : RawTokenFits tok ((c - s.cur) / 4)) :
    Inv (merge tok ((s.setCur c).setWarn n)) := by
  obtain ⟨hbound, hblk, hst, hblock⟩ := h.of_busy hg
  have hmerged := blockOk_merge hblock hbound.cursor.2 hmore hn htok
  have hcursor : CursorOk (merge tok ((s.setCur c).setWarn n)) := by simpa [CursorOk] using ⟨hal, hle⟩
  have hbound' : BlockBoundary (merge tok ((s.setCur c).setWarn n)) :=
    { buf_wf := by simpa using hbound.buf_wf
      cursor := hcursor
      counts := hmerged.countsOk hcursor.2
      err := by simpa [ErrOk] using hbound.err
      gst := by simpa using hg
      len := by simpa using hbound.len
      blk := by simpa using hblk.le
      numbered := by simpa [Numbered] using hbound.numbered
      results := by simpa [ResultsOk] using hbound.results }
  exact inv_of_blockOk hbound' (by simpa using hblk) (by simpa using hst) hmerged

/-- Running one unit of a Block keeps the invariant. -/
theorem inv_unit {s t : State} {w : Word} (h : Inv s) (hg : s.gst = .busy) (hc : s.cur < 1024)
    (ht : dispatch w (s.setCur (s.cur + 4)) = .next t) : Inv t := by
  obtain ⟨hbound, hblk, _, _⟩ := h.of_busy hg
  obtain ⟨hal, _⟩ := hbound.cursor
  have hle : s.cur + 4 ≤ 1024 := by omega
  rcases dispatch_cases ht with ⟨tok, htok, rfl⟩ | ⟨col, cf, e, he, rfl⟩
  · rw [State.setCur_cfg, State.setCur_cur] at htok
    have hbytes := secondWordBytes_cases (s.cfg.ftable.row (fcode w)) (s.cur + 4)
    have hwarn := unitWarnings_le_one (s.cfg.ftable.row (fcode w))
    have hwords : (s.cur + 4 + secondWordBytes (s.cfg.ftable.row (fcode w)) (s.cur + 4) - s.cur) / 4 =
        1 + secondWordBytes (s.cfg.ftable.row (fcode w)) (s.cur + 4) / 4 := by omega
    rw [← hwords] at htok
    rw [State.setCur_cfg, unitEnd_setCur]
    exact inv_merge h hg (by omega) (by omega) (by omega) (Nat.add_le_add_left hwarn s.warn) htok
  · have hfail : ResultOk (.error e) :=
      textToken_error_resultOk he (by simpa using hal) (Nat.sub_le_of_le_add hle)
    have hcursor : CursorOk (s.setCur (s.cur + 4)) := ⟨by simpa using hal, hle⟩
    exact inv_failBlock ⟨hbound.buf_wf, hcursor, hbound.counts, hbound.err, hg, hbound.len, hblk.le, hbound.numbered,
      hbound.results⟩ hblk hfail

/-- Settles O48: a step starts a run, runs one unit or ends a Block, and each of the three keeps the invariant. -/
theorem stepKeepsInvariant : Obligations.StepKeepsInvariant := by
  intro s t hinv h
  rcases step_cases h with ⟨_, rfl⟩ | ⟨w, hg, _, _, hc, _, hexec⟩ | ⟨hg, _, _, hc, rfl⟩
  · exact inv_startRun hinv
  · rw [exec_eq_dispatch] at hexec
    exact inv_unit hinv hg hc hexec
  · exact inv_endBlock hinv hg hc

/-- Settles O47: before a run there is no Block, no result and no failure. -/
theorem invariantAtReset : Obligations.InvariantAtReset :=
  ⟨reset_buf_wf, ⟨rfl, Nat.zero_le _⟩, ⟨Nat.zero_le _, Nat.zero_le _⟩, by simp [ErrOk, State.reset], trivial,
    fun _ hr => by simp [State.reset] at hr, fun hg => by simp [State.reset] at hg⟩

end Sys2Proof.Machine

/-! ## 20_memory: words and their bytes, a memory that is only read, and Blocks that do not see each other -/

namespace Sys2Proof.Machine

/-! ### Words and their bytes -/

/-- Where the four bytes exist, `MemRead(a, 4)` is the word they make (R52). -/
theorem Buf.word?_of_get? {b : Buf} {a : Nat} {b0 b1 b2 b3 : Byte} (h0 : b.get? a = some b0)
    (h1 : b.get? (a + 1) = some b1) (h2 : b.get? (a + 2) = some b2) (h3 : b.get? (a + 3) = some b3) :
    b.word? a = some (wordOfBytes b0 b1 b2 b3) := by
  simp only [Buf.word?, h0, h1, h2, h3]

/-- Settles O1: the four bytes make the word, and its value fits 32 bits. -/
theorem wordIsLittleEndian : Obligations.WordIsLittleEndian :=
  fun _ _ b0 b1 b2 b3 h0 h1 h2 h3 =>
    ⟨wordOfBytes b0 b1 b2 b3, Buf.word?_of_get? h0 h1 h2 h3, wordOfBytes_toNat b0 b1 b2 b3⟩

/-- Settles O2: the three bytes above the first add multiples of 256 to the word, so its low eight bits are the first
byte's. -/
theorem firstByteHoldsCodeAndFlag : Obligations.FirstByteHoldsCodeAndFlag := by
  intro b0 b1 b2 b3
  have hword := wordOfBytes_toNat b0 b1 b2 b3
  refine ⟨?_, ?_, ?_⟩
  · rw [fcode_toNat]
    omega
  · have hbit : (b0.getLsbD 4).toNat = b0.toNat / 16 % 2 := Nat.toNat_testBit b0.toNat 4
    apply bool_toNat_inj
    rw [hexFlag_toNat, hbit]
    omega
  · rw [payload_toNat]
    omega

/-! ### What the caller supplied is never written -/

/-- The buffer, the tables and `START` of `t` are those of `s` (10_state R21, R29). -/
def KeepsInput (s t : State) : Prop := t.buf = s.buf ∧ t.cfg = s.cfg ∧ t.start = s.start

theorem keepsInput_merge (tok : Token) (s : State) : KeepsInput s (merge tok s) := by
  simp [KeepsInput]

theorem keepsInput_failBlock (e : HardFailure) (s : State) : KeepsInput s (failBlock e s) := by
  simp [KeepsInput, failBlock, nextBlock]

theorem keepsInput_endBlock (s : State) : KeepsInput s (endBlock s) := by
  simp [KeepsInput, endBlock, nextBlock, flush_eq]

theorem keepsInput_startRun (s : State) : KeepsInput s (startRun s) := by
  rcases startRun_cases s with ⟨_, _, h⟩ | ⟨_, _, h⟩ | ⟨_, h⟩ <;> rw [h] <;> simp [KeepsInput]

/-- An instruction merges its token, with the cursor and the warnings moved on, or fails its Block. -/
theorem keepsInput_of_exec {i : Instr} {s t : State} (h : exec i s = .next t) : KeepsInput s t := by
  rw [exec_eq_dispatch] at h
  rcases dispatch_cases h with ⟨tok, _, rfl⟩ | ⟨_, _, e, _, rfl⟩
  · exact keepsInput_merge tok (unitEnd _ s)
  · exact keepsInput_failBlock e s

theorem keepsInput_of_step {s t : State} (h : step s = .next t) : KeepsInput s t := by
  rcases step_cases h with ⟨_, rfl⟩ | ⟨w, _, _, _, _, _, hexec⟩ | ⟨_, _, _, _, rfl⟩
  · exact keepsInput_startRun s
  · have hkeep : KeepsInput (s.setCur (s.cur + 4)) t := keepsInput_of_exec hexec
    exact hkeep
  · exact keepsInput_endBlock s

/-- An unchanged buffer reads the same at every address (R57). -/
theorem KeepsInput.get?_eq {s t : State} (h : KeepsInput s t) (a : Nat) : t.buf.get? a = s.buf.get? a := by
  rw [h.1]

/-- Settles O3: every operation that a step or an instruction ends in keeps what the caller supplied. -/
theorem bufferAndConfigNeverWritten : Obligations.BufferAndConfigNeverWritten :=
  ⟨fun _ _ h => ⟨(keepsInput_of_step h).get?_eq, keepsInput_of_step h⟩,
    fun _ _ _ h => ⟨(keepsInput_of_exec h).get?_eq, keepsInput_of_exec h⟩⟩

/-! ### Two machines at the same place of equal Blocks -/

/-- The word at an aligned offset is the same in both Blocks. -/
theorem SameBlock.word?_eq {s t : State} (h : SameBlock s t) {o : Nat} (hal : o % 4 = 0) (ho : o < 1024) :
    s.buf.word? (1024 * s.blk + o) = t.buf.word? (1024 * t.blk + o) := by
  obtain ⟨-, -, -, -, -, -, -, -, -, -, -, -, -, hbytes⟩ := h
  simp only [Buf.word?, Nat.add_assoc, hbytes o ho, hbytes (o + 1) (by omega), hbytes (o + 2) (by omega),
    hbytes (o + 3) (by omega)]

/-- Where the Block goes on, both machines read a word at the cursor, and it is the same one. -/
theorem SameBlock.exists_word {s t : State} (h : SameBlock s t) (hc : s.cur < 1024) :
    ∃ w, s.buf.word? (1024 * s.blk + s.cur) = some w ∧ t.buf.word? (1024 * t.blk + t.cur) = some w := by
  have ⟨_, hcur, _, _, _, _, _, _, _, _, hal, hb, _, _⟩ := h
  obtain ⟨w, hw⟩ := word_exists hb hal hc
  exact ⟨w, hw, by rw [← hcur, ← h.word?_eq hal hc, hw]⟩

theorem SameBlock.after_setCur {s t : State} (h : SameBlock s t) {c : Nat} (hal : c % 4 = 0) :
    SameBlock (s.setCur c) (t.setCur c) := by
  obtain ⟨hcfg, -, hwt, hout, hwarn, herr, hgs, hgt, hrs, hrt, -, hbs, hbt, hbytes⟩ := h
  exact ⟨hcfg, rfl, hwt, hout, hwarn, herr, hgs, hgt, hrs, hrt, hal, hbs, hbt, hbytes⟩

theorem SameBlock.after_warnUnknown {s t : State} (h : SameBlock s t) : SameBlock (warnUnknown s) (warnUnknown t) := by
  obtain ⟨hcfg, hcur, hwt, hout, hwarn, herr, hgs, hgt, hrs, hrt, hal, hbs, hbt, hbytes⟩ := h
  exact ⟨hcfg, hcur, hwt, hout, congrArg (· + 1) hwarn, herr, hgs, hgt, hrs, hrt, hal, hbs, hbt, hbytes⟩

/-- The merge step reads the working token and the pending list only (43_merge_block R231). -/
theorem merge_wt_outbuf_congr (tok : Token) {s t : State} (hwt : s.wt = t.wt) (hout : s.outbuf = t.outbuf) :
    (merge tok s).wt = (merge tok t).wt ∧ (merge tok s).outbuf = (merge tok t).outbuf := by
  unfold merge
  rw [hwt, hout]
  cases t.wt with
  | none => exact ⟨rfl, hout⟩
  | some w => by_cases hc : tok.colour = .cont <;> simp [hc, hout]

theorem SameBlock.after_merge {s t : State} (h : SameBlock s t) (tok : Token) :
    SameBlock (merge tok s) (merge tok t) := by
  obtain ⟨hcfg, hcur, hwt, hout, hwarn, herr, hgs, hgt, hrs, hrt, hal, hbs, hbt, hbytes⟩ := h
  obtain ⟨hwt', hout'⟩ := merge_wt_outbuf_congr tok hwt hout
  simpa only [SameBlock, merge_cfg, merge_cur, merge_warn, merge_err, merge_gst, merge_st, merge_blk, merge_buf]
    using ⟨hcfg, hcur, hwt', hout', hwarn, herr, hgs, hgt, hrs, hrt, hal, hbs, hbt, hbytes⟩

/-! ### They step alike -/

/-- Machines that were at `s` and `t` both answer a next state, and either stay at the same place of their Blocks with
no result committed, or both end the Block with the same result (R59 c). -/
def AnswerAlike (s t : State) (rs rt : Result) : Prop :=
  ∃ s' t', rs = .next s' ∧ rt = .next t' ∧
    ((SameBlock s' t' ∧ s'.results = s.results ∧ t'.results = t.results) ∨
      ∃ r, s'.results = s.results ++ [(s.start + s.blk, r)] ∧ t'.results = t.results ++ [(t.start + t.blk, r)])

theorem failBlock_results (e : HardFailure) (s : State) :
    (failBlock e s).results = s.results ++ [(s.start + s.blk, .error e)] := by
  simp [failBlock, nextBlock]

theorem endBlock_results (s : State) :
    (endBlock s).results = s.results ++ [(s.start + s.blk, .tokens (s.outbuf ++ s.wt.toList))] := by
  simp [endBlock, nextBlock, flush_eq]

/-- The same raw token, or the same failure, completes the unit alike. -/
theorem SameBlock.complete_alike {s t : State} (h : SameBlock s t) (r : Except HardFailure Token) :
    AnswerAlike s t (complete r s) (complete r t) := by
  cases r with
  | ok tok => exact ⟨_, _, rfl, rfl, .inl ⟨h.after_merge tok, merge_results tok s, merge_results tok t⟩⟩
  | error e => exact ⟨_, _, rfl, rfl, .inr ⟨.error e, failBlock_results e s, failBlock_results e t⟩⟩

/-- A text word's token depends on the table and on the word's offset in its Block. -/
theorem SameBlock.execText_alike {s t : State} (h : SameBlock s t) (col : Colour) (cf : CaseFlag) (p : Payload) :
    AnswerAlike s t (execText col cf p s) (execText col cf p t) := by
  have ⟨hcfg, hcur, _⟩ := h
  unfold execText
  rw [← hcfg, ← hcur]
  exact h.complete_alike _

/-- A long number's second word is the same in both Blocks, or missing in both. -/
theorem SameBlock.execLong_alike {s t : State} (h : SameBlock s t) (col : Colour) (hex : Bool) :
    AnswerAlike s t (execLong col hex s) (execLong col hex t) := by
  have ⟨_, hcur, _, _, _, _, _, _, _, _, hal, _⟩ := h
  by_cases hc : s.cur < 1024
  · obtain ⟨w2, hs, ht⟩ := h.exists_word hc
    have halike : AnswerAlike s t _ _ :=
      (h.after_setCur (c := s.cur + 4) (by omega)).complete_alike (.ok (longToken col hex w2))
    simpa only [execLong, hasNext, ← hcur, hc, decide_true, if_true, nextWord_of_word hs,
      nextWord_of_word ht] using halike
  · have halike := h.complete_alike (.ok (longToken col hex 0))
    simpa [execLong, hasNext, ← hcur, hc] using halike

theorem SameBlock.dispatchRow_alike {s t : State} (h : SameBlock s t) (r : FRow) (w : Word) :
    AnswerAlike s t (dispatchRow r w s) (dispatchRow r w t) := by
  cases r with
  | unknown => exact h.after_warnUnknown.complete_alike (.ok unknownToken)
  | mapped col cat cf =>
    cases cat with
    | text => exact h.execText_alike col cf (payload w)
    | continuation => exact h.execText_alike col cf (payload w)
    | shortNumber => exact h.complete_alike (.ok (shortToken col (field27 w) (hexFlag w)))
    | longNumber => exact h.execLong_alike col (hexFlag w)

theorem SameBlock.exec_decodeWord_alike {s t : State} (h : SameBlock s t) (w : Word) :
    AnswerAlike s t (exec (decodeWord w) s) (exec (decodeWord w) t) := by
  have ⟨hcfg, _⟩ := h
  rw [exec_decodeWord, exec_decodeWord, ← hcfg]
  exact h.dispatchRow_alike _ w

/-- Both machines run the same word, or both are at the end of their Block with the same tokens. -/
theorem SameBlock.step_alike {s t : State} (h : SameBlock s t) : AnswerAlike s t (step s) (step t) := by
  have ⟨_, hcur, hwt, hout, _, _, hgs, hgt, hrs, hrt, hal, hbs, hbt, _⟩ := h
  by_cases hc : s.cur < 1024
  · obtain ⟨w, hs, ht⟩ := h.exists_word hc
    rw [step_of_word hgs hbs hrs hc hs, step_of_word hgt hbt hrt (hcur ▸ hc) ht, ← hcur]
    exact (h.after_setCur (c := s.cur + 4) (by omega)).exec_decodeWord_alike w
  · rw [step_at_end hgs hbs hrs hc, step_at_end hgt hbt hrt (hcur ▸ hc)]
    refine ⟨_, _, rfl, rfl, .inr ⟨.tokens (s.outbuf ++ s.wt.toList), endBlock_results s, ?_⟩⟩
    rw [endBlock_results, hout, hwt]

/-- Settles O52: the two machines read the same words, so each unit and the end of the Block go alike in both. -/
theorem blockDependsOnItsBytesOnly : Obligations.BlockDependsOnItsBytesOnly := by
  intro s t s' h hs
  obtain ⟨s'', t', hs', ht', halike⟩ := h.step_alike
  obtain rfl : s' = s'' := by simpa using hs.symm.trans hs'
  exact ⟨t', ht', halike⟩

end Sys2Proof.Machine

/-! ## 30_encoding: words and instructions, the function-code table, packed codes, and data a unit ignores -/

namespace Sys2Proof

/-! ### Four bytes and a word, each from the other (R80 to R85, R94) -/

/-- The word made of its own four bytes. -/
theorem wordOfBytes_bytes (w : Word) : wordOfBytes (BitVec.ofNat 8 w.toNat) (BitVec.ofNat 8 (w.toNat / 256))
    (BitVec.ofNat 8 (w.toNat / 256 / 256)) (BitVec.ofNat 8 (w.toNat / 256 / 256 / 256)) = w := by
  apply BitVec.eq_of_toNat_eq
  have hlt := w.isLt
  simp only [wordOfBytes_toNat, BitVec.toNat_ofNat]
  omega

/-- The bytes of the word that four bytes make. -/
theorem leBytes_wordOfBytes (b0 b1 b2 b3 : Byte) : leBytes 4 (wordOfBytes b0 b1 b2 b3).toNat = [b0, b1, b2, b3] := by
  have h0 := b0.isLt; have h1 := b1.isLt; have h2 := b2.isLt; have h3 := b3.isLt
  simp only [leBytes_four, wordOfBytes_toNat, List.cons.injEq, and_true]
  refine ⟨?_, ?_, ?_, ?_⟩ <;> apply BitVec.eq_of_toNat_eq <;> rw [BitVec.toNat_ofNat] <;> omega

/-- The word decoder inverts the encoder: the function code selects the constructor, whose fields the word holds. -/
theorem decodeWord_encodeWord (i : Instr) : decodeWord (encodeWord i) = i := by
  cases i <;> simp [encodeWord, decodeWord]

/-- Decoding the bytes of a word. -/
theorem decode_leBytes (w : Word) (rest : List Byte) : decode (leBytes 4 w.toNat ++ rest) = .ok (decodeWord w, rest) := by
  simp only [leBytes_four, List.cons_append, List.nil_append, decode, wordOfBytes_bytes]

/-- Settles O4: the four bytes give the word back, and the word the instruction. -/
theorem decodeInvertsEncode : Obligations.DecodeInvertsEncode := by
  intro i rest _
  rw [encode, decode_leBytes, decodeWord_encodeWord]

/-- Settles O5: the instruction is the one of the word that the bytes make, and the encoder gives that word. -/
theorem everyWordIsAnInstruction : Obligations.EveryWordIsAnInstruction := by
  intro b0 b1 b2 b3 rest
  refine ⟨decodeWord (wordOfBytes b0 b1 b2 b3), rfl, ?_⟩
  rw [encode, Machine.encodeWord_decodeWord, leBytes_wordOfBytes]

/-- Settles O6: the decoder evaluated on the five words. -/
theorem sampleWordsDecode : Obligations.SampleWordsDecode :=
  ⟨rfl, rfl, rfl, rfl, rfl⟩

/-! ### The function-code table (R86, R87) -/

/-- An open row is no continuation, has no case flag, and is in one of the eight colours. -/
theorem OpenRow.toRow_mapped {o : OpenRow} {col : Colour} {cat : Category} {cf : CaseFlag}
    (h : o.toRow = .mapped col cat cf) : cat ≠ .continuation ∧ cf = .none ∧ ∃ hue, col = .hue hue := by
  cases o with
  | unknown => simp [OpenRow.toRow] at h
  | text hue | short hue | long hue =>
    obtain ⟨rfl, rfl, rfl⟩ : _ ∧ _ ∧ _ := by simpa only [OpenRow.toRow, FRow.mapped.injEq] using h
    exact ⟨by decide, rfl, hue, rfl⟩

/-- The constraints of R86 on a mapped row of code `f`. -/
def RowAllowed (f : FCode) (r : FRow) : Prop :=
  ∀ col cat cf, r = .mapped col cat cf →
    (cat = .continuation ↔ f = 0) ∧ (cf ≠ .none ↔ f = 0xA ∨ f = 0xB) ∧ (f ≠ 0 → ∃ h, col = .hue h)

theorem rowAllowed_code0 : RowAllowed 0 (.mapped .cont .continuation .none) := by
  intro col cat cf h
  obtain ⟨rfl, rfl, rfl⟩ : _ ∧ _ ∧ _ := by simpa only [FRow.mapped.injEq] using h
  exact ⟨by decide, by decide, fun h0 => absurd rfl h0⟩

/-- A row in one of the eight colours is allowed where its category and case flag fit its code. -/
theorem rowAllowed_hue {f : FCode} {hue : Hue} {cat : Category} {cf : CaseFlag}
    (hfit : (cat = .continuation ↔ f = 0) ∧ (cf ≠ .none ↔ f = 0xA ∨ f = 0xB)) :
    RowAllowed f (.mapped (.hue hue) cat cf) := by
  intro col cat' cf' h
  obtain ⟨rfl, rfl, rfl⟩ : _ ∧ _ ∧ _ := by simpa only [FRow.mapped.injEq] using h
  exact ⟨hfit.1, hfit.2, fun _ => ⟨hue, rfl⟩⟩

/-- An open row is allowed at every code that is no continuation and has no case flag. -/
theorem OpenRow.rowAllowed (o : OpenRow) {f : FCode} (hf : f ≠ 0 ∧ f ≠ 0xA ∧ f ≠ 0xB) : RowAllowed f o.toRow := by
  intro col cat cf h
  obtain ⟨h0, hA, hB⟩ := hf
  obtain ⟨hcat, rfl, hhue⟩ := OpenRow.toRow_mapped h
  exact ⟨iff_of_false hcat h0, iff_of_false (fun hcf => hcf rfl) (not_or.mpr ⟨hA, hB⟩), fun _ => hhue⟩

/-- Every row of every table is allowed at its code: the seven settled codes by their rows, the nine open ones by the
type of an open row. -/
theorem FTable.rowAllowed (t : FTable) (f : FCode) : RowAllowed f (t.row f) := by
  rcases fcode_cases f with rfl | rfl | rfl | rfl | rfl | rfl | rfl | rfl | rfl | rfl | rfl | rfl | rfl | rfl | rfl | rfl
  · exact rowAllowed_code0
  · exact t.row1.rowAllowed (by decide)
  · exact rowAllowed_hue (by decide)
  · exact t.row3.rowAllowed (by decide)
  · exact t.row4.rowAllowed (by decide)
  · exact t.row5.rowAllowed (by decide)
  · exact t.row6.rowAllowed (by decide)
  · exact t.row7.rowAllowed (by decide)
  · exact rowAllowed_hue (by decide)
  · exact rowAllowed_hue (by decide)
  · exact rowAllowed_hue (by decide)
  · exact rowAllowed_hue (by decide)
  · exact rowAllowed_hue (by decide)
  · exact t.rowD.rowAllowed (by decide)
  · exact t.rowE.rowAllowed (by decide)
  · exact t.rowF.rowAllowed (by decide)

/-- Settles O7: the settled rows are read off the table, code 15 of the reference table is unknown, and every row is
allowed at its code. -/
theorem settledRowsHold : Obligations.SettledRowsHold :=
  ⟨⟨referenceFTable, 15, rfl⟩, fun t =>
    ⟨rfl, rfl, rfl, rfl, ⟨t.colourA, rfl⟩, ⟨t.colourB, rfl⟩, rfl, t.rowAllowed⟩⟩

/-- Settles O8: the sixteen rows evaluated. -/
theorem referenceRowsAreTheOpcodeTable : Obligations.ReferenceRowsAreTheOpcodeTable := rfl

end Sys2Proof

namespace Sys2Proof.Machine

/-! ### Packed codes read back (R82, R88, R89) -/

theorem codeBits_cases {c : Nat} (h : inCharDomain c = true) :
    (c < 8 ∧ codeBits c = 4) ∨ (16 ≤ c ∧ c < 24 ∧ codeBits c = 5) ∨ (96 ≤ c ∧ c < 128 ∧ codeBits c = 7) := by
  simp only [inCharDomain, Bool.or_eq_true, Bool.and_eq_true, decide_eq_true_eq] at h
  unfold codeBits
  rcases h with (h | ⟨h, h'⟩) | ⟨h, h'⟩
  · exact .inl ⟨h, if_pos h⟩
  · exact .inr (.inl ⟨h, h', by rw [if_neg (by omega), if_pos h']⟩)
  · exact .inr (.inr ⟨h, h', by rw [if_neg (by omega), if_neg (by omega)]⟩)

theorem four_le_codeBits (c : Nat) : 4 ≤ codeBits c := by
  unfold codeBits
  split
  · omega
  · split <;> omega

/-- A code of the domain fits its bits. -/
theorem lt_two_pow_codeBits {c : Nat} (h : inCharDomain c = true) : c < 2 ^ codeBits c := by
  rcases codeBits_cases h with ⟨h, hb⟩ | ⟨_, h, hb⟩ | ⟨_, h, hb⟩ <;> rw [hb] <;> omega

/-- The first two bits of a code of the domain give its length (R88). -/
theorem codeLength_firstTwoBits {c : Nat} (h : inCharDomain c = true) :
    codeLength (c / 2 ^ (codeBits c - 2)) = codeBits c := by
  rcases codeBits_cases h with ⟨h, hb⟩ | ⟨h, h', hb⟩ | ⟨h, h', hb⟩ <;> rw [hb]
  · rw [codeLength, if_pos (by omega)]
  · rw [codeLength, if_neg (by omega), if_pos (by omega)]
  · rw [codeLength, if_neg (by omega), if_neg (by omega)]

/-- A field of the payload is a quotient of the bits from its start on. -/
theorem payloadBits_eq_mod_div (p : Payload) {pos n : Nat} (h : pos + n ≤ 28) :
    payloadBits p pos n = p.toNat % 2 ^ (28 - pos) / 2 ^ (28 - (pos + n)) := by
  have hsplit : (2 : Nat) ^ (28 - pos) = 2 ^ (28 - (pos + n)) * 2 ^ n := by
    rw [← Nat.pow_add]
    congr 1
    omega
  rw [payloadBits, Nat.shiftRight_eq_div_pow, hsplit, Nat.mod_mul_right_div_self, Nat.sub_sub]

/-- How many bits of a code that starts at `pos` the payload holds. -/
def keptBits (pos c : Nat) : Nat := min (codeBits c) (28 - pos)

/-- Where the payload holds the kept bits of a code of the domain and the rest of the code is zero, that code is read. -/
theorem codeValue_of_keptBits {p : Payload} {pos c : Nat} (hpos : pos ≤ 26) (hc : inCharDomain c = true)
    (hkept : payloadBits p pos (keptBits pos c) * 2 ^ (codeBits c - keptBits pos c) = c) :
    codeLength (payloadBits p pos 2) = codeBits c ∧ codeValue p pos = c := by
  have hbits := four_le_codeBits c
  have htwo : 2 ≤ keptBits pos c := by unfold keptBits; omega
  have hle : keptBits pos c ≤ codeBits c := Nat.min_le_left _ _
  have hroom : pos + keptBits pos c ≤ 28 := by unfold keptBits; omega
  have hpfx : payloadBits p pos 2 = c / 2 ^ (codeBits c - 2) := by
    calc payloadBits p pos 2 = payloadBits p pos (keptBits pos c) / 2 ^ (keptBits pos c - 2) :=
          (payloadBits_top p htwo hroom).symm
      _ = payloadBits p pos (keptBits pos c) * 2 ^ (codeBits c - keptBits pos c) /
            (2 ^ (keptBits pos c - 2) * 2 ^ (codeBits c - keptBits pos c)) :=
          (Nat.mul_div_mul_right _ _ (Nat.two_pow_pos _)).symm
      _ = c / 2 ^ (codeBits c - 2) := by
          rw [hkept, ← Nat.pow_add]
          congr 2
          omega
  have hlen : codeLength (payloadBits p pos 2) = codeBits c := by rw [hpfx, codeLength_firstTwoBits hc]
  have htake : codeTake p pos = keptBits pos c := by rw [codeTake, hlen, keptBits]
  exact ⟨hlen, by rw [codeValue, htake, hlen, Nat.shiftLeft_eq, hkept]⟩

/-- After a code the unpacker goes on past its whole length: where the code was cut, both places are the end. -/
theorem codesFrom_step_length (p : Payload) {pos : Nat} (fuel : Nat) (h : pos ≤ 26) :
    codesFrom p (fuel + 1) pos =
      ⟨pos, codeValue p pos⟩ :: codesFrom p fuel (pos + codeLength (payloadBits p pos 2)) := by
  rw [codesFrom_step p fuel (by omega)]
  congr 1
  by_cases hcut : codeLength (payloadBits p pos 2) ≤ 28 - pos
  · rw [codeTake, Nat.min_eq_left hcut]
  · rw [codeTake, Nat.min_eq_right (by omega), codesFrom_stop p fuel (by omega), codesFrom_stop p fuel (by omega)]

/-- The unpacker reads a code that the payload holds, and goes on past it. -/
theorem codesFrom_of_keptBits {p : Payload} {pos c : Nat} (fuel : Nat) (hpos : pos ≤ 26) (hc : inCharDomain c = true)
    (hkept : payloadBits p pos (keptBits pos c) * 2 ^ (codeBits c - keptBits pos c) = c) :
    codesFrom p (fuel + 1) pos = ⟨pos, c⟩ :: codesFrom p fuel (pos + codeBits c) := by
  obtain ⟨hlen, hval⟩ := codeValue_of_keptBits hpos hc hkept
  rw [codesFrom_step_length p fuel hpos, hval, hlen]

/-- Zero bits to the end of the payload are read as zero codes. -/
theorem codesFrom_zero_fill {p : Payload} {fuel pos : Nat} (hfuel : 28 - pos ≤ 4 * fuel + 1)
    (hp : p.toNat % 2 ^ (28 - pos) = 0) :
    (codesFrom p fuel pos).map PackedCode.code = List.replicate ((28 - pos + 2) / 4) 0 := by
  induction fuel generalizing pos with
  | zero => rw [codesFrom, show (28 - pos + 2) / 4 = 0 by omega]; rfl
  | succ fuel ih =>
    by_cases hpos : pos ≤ 26
    · have hbits : codeBits 0 = 4 := rfl
      have hzero : payloadBits p pos (keptBits pos 0) = 0 := by
        rw [payloadBits_eq_mod_div p (by unfold keptBits; omega), hp, Nat.zero_div]
      have hp' : p.toNat % 2 ^ (28 - (pos + 4)) = 0 :=
        Nat.mod_eq_zero_of_dvd ((Nat.pow_dvd_pow 2 (by omega)).trans (Nat.dvd_of_mod_eq_zero hp))
      rw [codesFrom_of_keptBits fuel hpos rfl (by rw [hzero, Nat.zero_mul]), hbits, List.map_cons,
        ih (by omega) hp', ← List.replicate_succ]
      congr 1
      omega
    · rw [codesFrom_stop p _ (by omega), show (28 - pos + 2) / 4 = 0 by omega]
      rfl

/-- Packing one code: its kept bits at their place, and the rest of the codes. -/
theorem packFrom_cons (pos c : Nat) (cs : List Nat) : packFrom pos (c :: cs) =
    c / 2 ^ (pos + codeBits c - 28) * 2 ^ (28 - (pos + codeBits c)) + packFrom (pos + codeBits c) cs := by
  rw [packFrom]
  congr 1
  rcases Nat.le_total (pos + codeBits c) 28 with h | h
  · rw [Nat.sub_eq_zero_of_le h, Nat.pow_zero, Nat.div_one, ← Nat.sub_add_cancel h, Nat.pow_add, ← Nat.mul_assoc,
      Nat.mul_div_cancel _ (Nat.two_pow_pos _), Nat.sub_add_cancel h]
  · rw [Nat.sub_eq_zero_of_le h, Nat.pow_zero, Nat.mul_one, ← Nat.sub_add_cancel h, Nat.pow_add,
      Nat.mul_div_mul_right _ _ (Nat.two_pow_pos _), Nat.sub_add_cancel h]

/-- The codes packed from `pos` on do not reach the bits before it. -/
theorem packFrom_lt {pos : Nat} {codes : List Nat} (h : ∀ c ∈ codes, inCharDomain c = true) :
    packFrom pos codes < 2 ^ (28 - pos) := by
  induction codes generalizing pos with
  | nil => exact Nat.two_pow_pos _
  | cons c cs ih =>
    obtain ⟨hc, hcs⟩ := List.forall_mem_cons.mp h
    have hrest : packFrom (pos + codeBits c) cs < 2 ^ (28 - (pos + codeBits c)) := ih hcs
    have hkept : c / 2 ^ (pos + codeBits c - 28) < 2 ^ (28 - pos - (28 - (pos + codeBits c))) := by
      apply Nat.div_lt_of_lt_mul
      rw [← Nat.pow_add]
      exact (lt_two_pow_codeBits hc).trans_le (Nat.pow_le_pow_right Nat.two_pos (by omega))
    calc packFrom pos (c :: cs)
        < (c / 2 ^ (pos + codeBits c - 28) + 1) * 2 ^ (28 - (pos + codeBits c)) := by
          rw [packFrom_cons, Nat.succ_mul]
          exact Nat.add_lt_add_left hrest _
      _ ≤ 2 ^ (28 - pos - (28 - (pos + codeBits c))) * 2 ^ (28 - (pos + codeBits c)) := Nat.mul_le_mul_right _ hkept
      _ = 2 ^ (28 - pos) := by
          rw [← Nat.pow_add]
          congr 1
          omega

/-- Codes of the domain can be packed from `pos` on so that each is read back: each starts where two bits are left, and
the bits of it that do not fit are zero. -/
def FitsFrom : Nat → List Nat → Prop
  | _, [] => True
  | pos, c :: cs => pos ≤ 26 ∧ c % 2 ^ (pos + codeBits c - 28) = 0 ∧ FitsFrom (pos + codeBits c) cs

/-- It is enough that the last code starts where two bits are left and is cut by zero bits only. -/
theorem fitsFrom_of_last {pos : Nat} {codes : List Nat} (hstart : codes ≠ [] → pos + packedBits codes.dropLast ≤ 26)
    (hcut : ∀ c, codes.getLast? = some c → c % 2 ^ (pos + packedBits codes - 28) = 0) : FitsFrom pos codes := by
  induction codes generalizing pos with
  | nil => trivial
  | cons c cs ih =>
    have hpos := hstart (List.cons_ne_nil c cs)
    cases cs with
    | nil => exact ⟨by omega, hcut c rfl, trivial⟩
    | cons d ds =>
      rw [List.dropLast_cons_cons, packedBits] at hpos
      refine ⟨by omega, ?_, ih (fun _ => by omega) fun e he => ?_⟩
      · rw [Nat.sub_eq_zero_of_le (by omega), Nat.pow_zero, Nat.mod_one]
      · have := hcut e (by rw [List.getLast?_cons_cons, he])
        rwa [packedBits, ← Nat.add_assoc] at this

/-- What the payload holds of the first packed code makes that code. -/
theorem keptBits_of_packFrom {p : Payload} {pos c : Nat} {cs : List Nat} (hpos : pos ≤ 26)
    (hcs : ∀ d ∈ cs, inCharDomain d = true) (hcut : c % 2 ^ (pos + codeBits c - 28) = 0)
    (hp : p.toNat % 2 ^ (28 - pos) = packFrom pos (c :: cs)) :
    payloadBits p pos (keptBits pos c) * 2 ^ (codeBits c - keptBits pos c) = c := by
  have hlt : packFrom (pos + codeBits c) cs < 2 ^ (28 - (pos + codeBits c)) := packFrom_lt hcs
  have hend : 28 - (pos + keptBits pos c) = 28 - (pos + codeBits c) := by unfold keptBits; omega
  have hdropped : codeBits c - keptBits pos c = pos + codeBits c - 28 := by unfold keptBits; omega
  have hfield : payloadBits p pos (keptBits pos c) = c / 2 ^ (pos + codeBits c - 28) := by
    rw [payloadBits_eq_mod_div p (by unfold keptBits; omega), hp, packFrom_cons, hend, Nat.mul_comm,
      Nat.mul_add_div (Nat.two_pow_pos _), Nat.div_eq_of_lt hlt, Nat.add_zero]
  rw [hfield, hdropped]
  exact Nat.div_mul_cancel (Nat.dvd_of_mod_eq_zero hcut)

/-- Behind the first packed code stand the others. -/
theorem packFrom_tail {p : Payload} {pos c : Nat} {cs : List Nat} (hcs : ∀ d ∈ cs, inCharDomain d = true)
    (hp : p.toNat % 2 ^ (28 - pos) = packFrom pos (c :: cs)) :
    p.toNat % 2 ^ (28 - (pos + codeBits c)) = packFrom (pos + codeBits c) cs := by
  have hdvd : 2 ^ (28 - (pos + codeBits c)) ∣ 2 ^ (28 - pos) := Nat.pow_dvd_pow 2 (by omega)
  rw [← Nat.mod_mod_of_dvd _ hdvd, hp, packFrom_cons, Nat.mul_add_mod', Nat.mod_eq_of_lt (packFrom_lt hcs)]

/-- The unpacker reads packed codes back, and then the zero fill. -/
theorem codesFrom_packFrom {p : Payload} {fuel pos : Nat} {codes : List Nat} (hfuel : 28 - pos ≤ 4 * fuel + 1)
    (hdom : ∀ c ∈ codes, inCharDomain c = true) (hfits : FitsFrom pos codes)
    (hp : p.toNat % 2 ^ (28 - pos) = packFrom pos codes) :
    (codesFrom p fuel pos).map PackedCode.code =
      codes ++ List.replicate ((28 - (pos + packedBits codes) + 2) / 4) 0 := by
  induction codes generalizing fuel pos with
  | nil => exact codesFrom_zero_fill hfuel hp
  | cons c cs ih =>
    obtain ⟨hpos, hcut, hrest⟩ := hfits
    obtain ⟨hc, hcs⟩ := List.forall_mem_cons.mp hdom
    obtain ⟨n, rfl⟩ : ∃ n, fuel = n + 1 := Nat.exists_eq_succ_of_ne_zero (by omega)
    have hbits := four_le_codeBits c
    rw [codesFrom_of_keptBits n hpos hc (keptBits_of_packFrom hpos hcs hcut hp), List.map_cons,
      ih (by omega) hcs hrest (packFrom_tail hcs hp), packedBits, Nat.add_assoc, List.cons_append]

/-- Settles O15: packed from bit 0 on, the codes lie within the 28 bits of the payload, and are read back from there. -/
theorem packedCodesReadBack : Obligations.PackedCodesReadBack := by
  intro codes hdom hstart hcut
  have hlt : packFrom 0 codes < 2 ^ 28 := packFrom_lt hdom
  have hfits : FitsFrom 0 codes := fitsFrom_of_last (by simpa using hstart) (by simpa using hcut)
  have hp : (BitVec.ofNat 28 (packFrom 0 codes)).toNat % 2 ^ (28 - 0) = packFrom 0 codes := by
    rw [BitVec.toNat_ofNat, Nat.mod_mod, Nat.mod_eq_of_lt hlt]
  simpa only [codesOf, Nat.zero_add] using codesFrom_packFrom (fuel := 14) (by omega) hdom hfits hp

/-! ### The bit left over after the last code (R92) -/

/-- The bits a code was read from are those its value says. -/
theorem codeBits_codeValue (p : Payload) {pos : Nat} (h : 28 - pos ≥ 2) :
    codeBits (codeValue p pos) = codeLength (payloadBits p pos 2) := by
  have htop := codeValue_top p h
  have hlt := codeValue_lt p pos
  rcases codeLength_cases (payloadBits p pos 2) with ⟨hp, hl⟩ | ⟨hp, hl⟩ | ⟨hp, hl⟩ <;> rw [hl] at htop hlt ⊢
  · exact if_pos (by omega)
  · rw [codeBits, if_neg (by omega), if_pos (by omega)]
  · rw [codeBits, if_neg (by omega), if_neg (by omega)]

/-- Fields that end before the last bit are the same in payloads that differ in that bit only. -/
theorem payloadBits_congr {p q : Payload} (hpq : p.toNat / 2 = q.toNat / 2) {pos n : Nat} (h : pos + n ≤ 27) :
    payloadBits q pos n = payloadBits p pos n := by
  have hsplit : (2 : Nat) ^ (28 - pos - n) = 2 * 2 ^ (27 - pos - n) := by
    rw [← Nat.pow_succ']
    congr 1
    omega
  simp only [payloadBits, Nat.shiftRight_eq_div_pow, hsplit, ← Nat.div_div_eq_div_mul, hpq]

/-- A code that ends before the last bit is the same in payloads that differ in that bit only. -/
theorem codesFrom_step_congr {p q : Payload} (hpq : p.toNat / 2 = q.toNat / 2) {pos : Nat} (fuel : Nat)
    (hpos : 28 - pos ≥ 2) (hroom : pos + codeTake p pos ≤ 27) :
    codesFrom q (fuel + 1) pos = ⟨pos, codeValue p pos⟩ :: codesFrom q fuel (pos + codeTake p pos) := by
  have htwo := two_le_codeTake (p := p) hpos
  have hpfx : payloadBits q pos 2 = payloadBits p pos 2 := payloadBits_congr hpq (by omega)
  have htake : codeTake q pos = codeTake p pos := by rw [codeTake, codeTake, hpfx]
  have hval : codeValue q pos = codeValue p pos := by
    rw [codeValue, codeValue, htake, hpfx, payloadBits_congr hpq hroom]
  rw [codesFrom_step q fuel hpos, hval, htake]

/-- Where the last code ends before the last bit, every code does, and all are the same. -/
theorem codesFrom_congr {p q : Payload} (hpq : p.toNat / 2 = q.toNat / 2) {fuel pos : Nat} {c : PackedCode}
    (hlast : (codesFrom p fuel pos).getLast? = some c) (hend : c.pos + codeBits c.code = 27) :
    codesFrom q fuel pos = codesFrom p fuel pos := by
  induction fuel generalizing pos with
  | zero => rfl
  | succ fuel ih =>
    by_cases hpos : 28 - pos ≥ 2
    · rw [codesFrom_step p fuel hpos] at hlast ⊢
      have hle := codeTake_le_length p pos
      cases htail : codesFrom p fuel (pos + codeTake p pos) with
      | nil =>
        obtain rfl : ⟨pos, codeValue p pos⟩ = c := by simpa [htail] using hlast
        have hlen : pos + codeLength (payloadBits p pos 2) = 27 := codeBits_codeValue p hpos ▸ hend
        have htake : codeTake p pos = codeLength (payloadBits p pos 2) := Nat.min_eq_left (by omega)
        rw [codesFrom_step_congr hpq fuel hpos (by omega), codesFrom_stop q fuel (by omega)]
      | cons d ds =>
        obtain ⟨hge, hd, _⟩ := mem_codesFrom (htail ▸ List.mem_cons_self : d ∈ codesFrom p fuel (pos + codeTake p pos))
        have hlast' : (codesFrom p fuel (pos + codeTake p pos)).getLast? = some c := by
          rwa [htail, List.getLast?_cons_cons, ← htail] at hlast
        rw [codesFrom_step_congr hpq fuel hpos (by omega), ih hlast', htail]
    · rw [codesFrom_stop p _ hpos, codesFrom_stop q _ hpos]

/-- Settles O16: the payloads agree in all bits above the last, and the codes end before it. -/
theorem spareBitIgnored : Obligations.SpareBitIgnored := by
  intro p q c hlast hend hbits
  refine codesFrom_congr ?_ hlast hend
  apply Nat.eq_of_testBit_eq
  intro j
  rw [Nat.testBit_div_two, Nat.testBit_div_two]
  exact hbits (j + 1) (Nat.succ_pos j)

/-! ### A long number's second word is data (R84) -/

/-- A number's value is the signed value of its bits. -/
theorem tc_toNat {w : Nat} (hw : 0 < w) (x : BitVec w) : tc x.toNat w = x.toInt := by
  have hlt := x.isLt
  have hpow : 2 ^ w = 2 * 2 ^ (w - 1) := by rw [← Nat.pow_succ', Nat.succ_eq_add_one, Nat.sub_add_cancel hw]
  have hbit : x.toNat.testBit (w - 1) = decide (2 ^ (w - 1) ≤ x.toNat) :=
    x.msb_eq_getLsbD_last.symm.trans x.msb_eq_decide
  rw [tc, hbit, BitVec.toInt_eq_toNat_cond]
  by_cases h : 2 ^ (w - 1) ≤ x.toNat
  · have hmod : x.toNat % 2 ^ (w - 1) = x.toNat - 2 ^ (w - 1) := by
      rw [Nat.mod_eq_sub_mod h, Nat.mod_eq_of_lt (by omega)]
    rw [if_pos (by simpa using h), if_neg (by omega), hmod]
    omega
  · rw [if_neg (by simpa using h), if_pos (by omega), Nat.mod_eq_of_lt (by omega), Int.sub_zero]

/-- A long number with a second word in its Block (42_number R196). -/
theorem execLong_of_word {s : State} {w2 : Word} (hc : s.cur < 1024)
    (hw : s.buf.word? (1024 * s.blk + s.cur) = some w2) (col : Colour) (h : Bool) :
    execLong col h s = .next (merge ⟨col, render h w2.toInt⟩ (s.setCur (s.cur + 4))) := by
  simp [execLong, hasNext, hc, nextWord_of_word hw, complete, longToken, tc_toNat (w := 32)]

/-- Settles O30: the step runs the first word, whose row takes the second through the Word Reader. -/
theorem secondWordIsData : Obligations.SecondWordIsData := by
  intro s w w2 col cf hg hb hr _ hc hw hw2 hrow
  rw [step_of_word hg hb hr (by omega) hw, exec_decodeWord, State.setCur_cfg, hrow]
  exact execLong_of_word (s := s.setCur (s.cur + 4)) (by simp; omega) hw2 col (hexFlag w)

/-- Where the buffer holds the bytes of a word, that word is read. -/
theorem Buf.word?_of_leBytes {b : Buf} {a : Nat} {w : Word}
    (h : ∀ i, i < 4 → b.get? (a + i) = (leBytes 4 w.toNat)[i]?) : b.word? a = some w := by
  rw [← wordOfBytes_bytes w]
  exact Buf.word?_of_get? (h 0 (by omega)) (h 1 (by omega)) (h 2 (by omega)) (h 3 (by omega))

/-- Settles O31: the eight bytes are the two words of a long number in the yellow row. -/
theorem longNumberBytesRun : Obligations.LongNumberBytesRun := by
  intro s x h n hg hb hr ha hc hbytes
  have hw : s.buf.word? (1024 * s.blk + s.cur) = some (encodeWord (.lnum2 x h)) :=
    Buf.word?_of_leBytes fun i hi => by
      rw [hbytes i (by omega), encode, List.getElem?_append_left (by simpa using hi)]
  have hn : s.buf.word? (1024 * s.blk + s.cur + 4) = some n :=
    Buf.word?_of_leBytes fun i hi => by
      rw [Nat.add_assoc, hbytes (4 + i) (by omega), encode, List.getElem?_append_right (by simp), leBytes_length,
        Nat.add_sub_cancel_left]
  have hrow : s.cfg.ftable.row (fcode (encodeWord (.lnum2 x h))) = .mapped (.hue .yellow) .longNumber .none := by
    rw [encodeWord, fcode_wordSL]
    rfl
  simpa [encodeWord] using secondWordIsData s _ n _ _ hg hb hr ha hc hw hn hrow

/-! ### No word stops the machine, and ignored bits (R92, R94) -/

/-- Settles O45: an instruction is the dispatch of its word, and no row stops the machine. -/
theorem everyInstructionAnswersNext : Obligations.EveryInstructionAnswersNext := by
  intro i s _ hb ha
  rw [exec_eq_dispatch]
  exact dispatchRow_answers hb ha _ _

/-- Settles O33: an unknown row uses no bit of the word, and a long number's row the display flag only. -/
theorem ignoredBitsHaveNoEffect : Obligations.IgnoredBitsHaveNoEffect := by
  intro w v s hf
  simp only [exec_decodeWord, ← hf]
  refine ⟨fun hrow => ?_, fun col cf hrow hflag => ?_⟩
  · simp only [hrow, dispatchRow]
  · simp only [hrow, dispatchRow, hflag]

end Sys2Proof.Machine

/-! ## 40_fetch_dispatch: each word does what the row of its function code says -/

namespace Sys2Proof.Machine

/-! ### The operation of each category, from what it reads -/

/-- A text word whose codes all have characters merges its cased text (41_text R159). -/
theorem execText_of_unpack_ok {s : State} {p : Payload} {str : List Char}
    (h : unpack s.cfg.charset (s.cur - 4) p = .ok str) (col : Colour) (cf : CaseFlag) :
    execText col cf p s = .next (merge ⟨col, applyCase cf str⟩ s) := by
  rw [execText, textToken, h]
  rfl

/-- A text word with a code that has no character fails its Block (43_merge_block R238). -/
theorem execText_of_unpack_error {s : State} {p : Payload} {e : HardFailure}
    (h : unpack s.cfg.charset (s.cur - 4) p = .error e) (col : Colour) (cf : CaseFlag) :
    execText col cf p s = .next (failBlock e s) := by
  rw [execText, textToken, h]
  rfl

/-- A long number without a second word in its Block has the value zero (42_number R197). -/
theorem execLong_at_end {s : State} (hc : 1024 ≤ s.cur) (col : Colour) (h : Bool) :
    execLong col h s = .next (merge ⟨col, render h 0⟩ s) := by
  have hmore : hasNext s.cur = false := decide_eq_false (Nat.not_lt.mpr hc)
  rw [execLong, hmore]
  rfl

/-! ### The operation each row selects (R123) -/

section
variable {w : Word} {s : State}

/-- A word with an unknown row counts a warning and yields the sentinel (R124). -/
theorem exec_decodeWord_of_unknown (hrow : s.cfg.ftable.row (fcode w) = .unknown) :
    exec (decodeWord w) s = .next (merge unknownToken (s.setWarn (s.warn + 1))) := by
  rw [exec_decodeWord, hrow]
  rfl

/-- A continuation is run as a text word. -/
theorem exec_decodeWord_of_text {col : Colour} {cat : Category} {cf : CaseFlag}
    (hrow : s.cfg.ftable.row (fcode w) = .mapped col cat cf) (hcat : cat = .text ∨ cat = .continuation) :
    exec (decodeWord w) s = execText col cf (payload w) s := by
  rw [exec_decodeWord, hrow]
  rcases hcat with rfl | rfl <;> rfl

theorem exec_decodeWord_of_shortNumber {col : Colour} {cf : CaseFlag}
    (hrow : s.cfg.ftable.row (fcode w) = .mapped col .shortNumber cf) :
    exec (decodeWord w) s = .next (merge (shortToken col (field27 w) (hexFlag w)) s) := by
  rw [exec_decodeWord, hrow]
  rfl

theorem exec_decodeWord_of_longNumber {col : Colour} {cf : CaseFlag}
    (hrow : s.cfg.ftable.row (fcode w) = .mapped col .longNumber cf) :
    exec (decodeWord w) s = execLong col (hexFlag w) s := by
  rw [exec_decodeWord, hrow]
  rfl

end

/-- Settles O9: the row selects the operation, and each operation does what the word's payload or the Block's next word
says. -/
theorem rowSelectsOperation : Obligations.RowSelectsOperation := by
  intro w s
  refine ⟨exec_decodeWord_of_unknown, ?text, fun _ _ => exec_decodeWord_of_shortNumber, ?long⟩
  case text =>
    intro col cat cf hrow hcat
    rw [exec_decodeWord_of_text hrow hcat]
    exact ⟨fun _ hok => execText_of_unpack_ok hok col cf, fun _ herr => execText_of_unpack_error herr col cf⟩
  case long =>
    intro col cf hrow
    rw [exec_decodeWord_of_longNumber hrow]
    refine ⟨fun w2 hc hw => ?_, fun hc => execLong_at_end hc col (hexFlag w)⟩
    rw [execLong_of_word hc hw, tc_toNat (w := 32) (by decide)]

/-- Settles O32: UNK.F is the decoded word of code 15, whatever its payload, and that row is unknown. -/
theorem unknownWordWarns : Obligations.UnknownWordWarns := by
  intro s x hF
  have hrow : s.cfg.ftable.row (fcode (encodeWord (.unkF x))) = .unknown := by
    rw [encodeWord, fcode_wordTU]
    exact congrArg OpenRow.toRow hF
  rw [← decodeWord_encodeWord (.unkF x)]
  exact exec_decodeWord_of_unknown hrow

end Sys2Proof.Machine

/-! ## 41_text: packed codes, the characters they stand for, the case policy, and the text instructions -/

namespace Sys2Proof.Machine

/-! ### The bits of one code (R150 to R152) -/

/-- Bit `i` of a field, from the right, is the payload's bit at that place. -/
theorem payloadBits_testBit (p : Payload) (pos n i : Nat) :
    (payloadBits p pos n).testBit i = (decide (i < n) && p.getLsbD (28 - pos - n + i)) := by
  rw [payloadBits, Nat.testBit_mod_two_pow, Nat.testBit_shiftRight, BitVec.testBit_toNat]

/-- Two bits give the length of the code they begin, the left one looked at first. -/
theorem codeLength_eq_of_bits {x : Nat} (hx : x < 4) :
    codeLength x = if x.testBit 1 = false then 4 else if x.testBit 0 = false then 5 else 7 := by
  interval_cases x <;> rfl

/-- The length of the code at `pos` is given by the payload's bits `pos` and `pos + 1` from the left (R151). -/
theorem codeLength_payloadBits (p : Payload) {pos : Nat} (hpos : pos ≤ 26) :
    codeLength (payloadBits p pos 2) =
      if p.getLsbD (27 - pos) = false then 4 else if p.getLsbD (26 - pos) = false then 5 else 7 := by
  have hleft : (payloadBits p pos 2).testBit 1 = p.getLsbD (27 - pos) := by
    rw [payloadBits_testBit, show 28 - pos - 2 + 1 = 27 - pos by omega]
    rfl
  have hright : (payloadBits p pos 2).testBit 0 = p.getLsbD (26 - pos) := by
    rw [payloadBits_testBit, show 28 - pos - 2 + 0 = 26 - pos by omega]
    rfl
  rw [codeLength_eq_of_bits (payloadBits_lt p pos 2), hleft, hright]

/-- Bit `j` of the code at `pos`, from the left, is a payload bit where the payload still has one, and padding where the
code was cut (R152). -/
theorem codeValue_testBit (p : Payload) {pos j : Nat} (hj : j < codeLength (payloadBits p pos 2)) :
    (codeValue p pos).testBit (codeLength (payloadBits p pos 2) - 1 - j) =
      (decide (pos + j < 28) && p.getLsbD (27 - (pos + j))) := by
  have hlen := codeTake_le_length p pos
  have hrest := codeTake_le_rest p pos
  rw [codeValue, Nat.testBit_shiftLeft]
  by_cases hread : j < codeTake p pos
  · have hplace : codeLength (payloadBits p pos 2) - 1 - j - (codeLength (payloadBits p pos 2) - codeTake p pos)
        = codeTake p pos - 1 - j := by omega
    have hbit : 28 - pos - codeTake p pos + (codeTake p pos - 1 - j) = 27 - (pos + j) := by omega
    rw [hplace, payloadBits_testBit, hbit, decide_eq_true (by omega), decide_eq_true (by omega),
      decide_eq_true (by omega), Bool.true_and]
  · have hcut : codeTake p pos = 28 - pos := by
      unfold codeTake at hread ⊢
      omega
    rw [decide_eq_false (by omega), decide_eq_false (by omega), Bool.false_and, Bool.false_and]

/-- Settles O13: each code was read at a place where two bits remain, and is the value read there. -/
theorem codeBitsComeFromPayload : Obligations.CodeBitsComeFromPayload := by
  intro p c hc
  obtain ⟨_, hpos, hcode⟩ := mem_codesFrom hc
  rw [← codeLength_payloadBits p hpos, hcode]
  exact ⟨codeValue_lt p c.pos, fun j => codeValue_testBit p⟩

/-! ### The sequence of codes (R155, R156, R170) -/

theorem codeBits_le_seven (c : Nat) : codeBits c ≤ 7 := by
  unfold codeBits
  split
  · omega
  · split <;> omega

/-- Each code is followed by those read from its end on, by the length of its value. -/
theorem codesFrom_step_codeBits (p : Payload) {pos : Nat} (fuel : Nat) (h : pos ≤ 26) :
    codesFrom p (fuel + 1) pos =
      ⟨pos, codeValue p pos⟩ :: codesFrom p fuel (pos + codeBits (codeValue p pos)) := by
  rw [codesFrom_step_length p fuel h, codeBits_codeValue p (by omega)]

/-- The first code starts where the reading starts. -/
theorem pos_of_mem_head?_codesFrom {p : Payload} {fuel pos : Nat} {c : PackedCode}
    (h : c ∈ (codesFrom p fuel pos).head?) : c.pos = pos := by
  cases fuel with
  | zero => simp [codesFrom] at h
  | succ fuel =>
    by_cases hpos : 28 - pos ≥ 2
    · obtain rfl : ⟨pos, codeValue p pos⟩ = c := by simpa [codesFrom_step p fuel hpos] using h
      rfl
    · simp [codesFrom_stop p _ hpos] at h

/-- Each code starts where the one before it ends. -/
theorem codesFrom_isChain (p : Payload) (fuel pos : Nat) :
    (codesFrom p fuel pos).IsChain fun c d => d.pos = c.pos + codeBits c.code := by
  induction fuel generalizing pos with
  | zero => exact .nil
  | succ fuel ih =>
    by_cases hpos : pos ≤ 26
    · rw [codesFrom_step_codeBits p fuel hpos, List.isChain_cons]
      exact ⟨fun _ => pos_of_mem_head?_codesFrom, ih _⟩
    · rw [codesFrom_stop p _ (by omega)]
      exact .nil

/-- With fuel for every code, there are enough codes of at most seven bits to leave at most one bit over. -/
theorem le_seven_mul_length_codesFrom (p : Payload) {fuel pos : Nat} (hfuel : 28 - pos ≤ 4 * fuel + 1) :
    27 - pos ≤ 7 * (codesFrom p fuel pos).length := by
  induction fuel generalizing pos with
  | zero => omega
  | succ fuel ih =>
    by_cases hpos : pos ≤ 26
    · have hmin := four_le_codeBits (codeValue p pos)
      have hmax := codeBits_le_seven (codeValue p pos)
      have htail := ih (pos := pos + codeBits (codeValue p pos)) (by omega)
      rw [codesFrom_step_codeBits p fuel hpos, List.length_cons]
      omega
    · omega

/-- With fuel for every code, the last one leaves at most one bit over (R155). -/
theorem codesFrom_getLast?_end {p : Payload} {fuel pos : Nat} {c : PackedCode} (hfuel : 28 - pos ≤ 4 * fuel + 1)
    (hlast : (codesFrom p fuel pos).getLast? = some c) : 27 ≤ c.pos + codeBits c.code := by
  induction fuel generalizing pos with
  | zero => simp [codesFrom] at hlast
  | succ fuel ih =>
    by_cases hpos : pos ≤ 26
    · have hbits := four_le_codeBits (codeValue p pos)
      have hfuel' : 28 - (pos + codeBits (codeValue p pos)) ≤ 4 * fuel + 1 := by omega
      rw [codesFrom_step_codeBits p fuel hpos, List.getLast?_cons] at hlast
      cases htail : (codesFrom p fuel (pos + codeBits (codeValue p pos))).getLast? with
      | some d =>
        obtain rfl : d = c := by simpa [htail] using hlast
        exact ih hfuel' htail
      | none =>
        obtain rfl : ⟨pos, codeValue p pos⟩ = c := by simpa [htail] using hlast
        have hend := le_seven_mul_length_codesFrom p hfuel'
        rw [List.getLast?_eq_none_iff.mp htail, List.length_nil] at hend
        simp only
        omega
    · simp [codesFrom_stop p _ (show ¬ 28 - pos ≥ 2 by omega)] at hlast

theorem codesOf_length_le (p : Payload) : (codesOf p).length ≤ 7 := codesFrom_length_le p 14 0

/-- Every code of a word starts where two bits remain and is in the domain of the Charset Table (R171). -/
theorem mem_codesOf {p : Payload} {c : PackedCode} (h : c ∈ codesOf p) :
    c.pos ≤ 26 ∧ inCharDomain c.code = true := by
  obtain ⟨_, hpos, hcode⟩ := mem_codesFrom h
  exact ⟨hpos, hcode ▸ codeValue_inCharDomain p (by omega)⟩

/-- Settles O14: fourteen codes are fuel enough for 28 bits. -/
theorem codeSequenceShape : Obligations.CodeSequenceShape := by
  intro p
  have hfuel : 28 - 0 ≤ 4 * 14 + 1 := by decide
  have hmany : 27 - 0 ≤ 7 * (codesOf p).length := le_seven_mul_length_codesFrom p hfuel
  refine ⟨?first, List.isChain_iff_getElem.mp (codesFrom_isChain p 14 0), fun c => mem_codesOf,
    fun c => codesFrom_getLast?_end hfuel, by omega, codesOf_length_le p⟩
  case first =>
    rw [codesOf, codesFrom_step p 13 (by decide)]
    rfl

/-! ### The characters of the codes (R153, R154, R171) -/

section
variable {cs : CharSet} {off : Nat}

theorem lookupCodes_cons_of_none {c : PackedCode} (hc : cs.char? c.code = none) (rest : List PackedCode) :
    lookupCodes cs off (c :: rest) = .error (.badCharCode c.code c.pos off) := by
  rw [lookupCodes_cons, hc]

theorem lookupCodes_cons_of_some {c : PackedCode} {ch : Char} (hc : cs.char? c.code = some ch)
    (rest : List PackedCode) :
    lookupCodes cs off (c :: rest) = (lookupCodes cs off rest).map (emitChar ch ++ ·) := by
  rw [lookupCodes_cons, hc]

/-- Codes that have characters do not keep the failure of a later one back. -/
theorem lookupCodes_append_of_error {before after : List PackedCode} {e : HardFailure}
    (hbefore : ∀ d ∈ before, (cs.char? d.code).isSome = true) (hafter : lookupCodes cs off after = .error e) :
    lookupCodes cs off (before ++ after) = .error e := by
  induction before with
  | nil => exact hafter
  | cons d before ih =>
    obtain ⟨hd, hrest⟩ := List.forall_mem_cons.mp hbefore
    obtain ⟨ch, hch⟩ := Option.isSome_iff_exists.mp hd
    rw [List.cons_append, lookupCodes_cons_of_some hch, ih hrest]
    rfl

/-- A failure is that of a code without a character behind codes that have one. -/
theorem exists_first_undefined_of_lookupCodes_error {l : List PackedCode} {e : HardFailure}
    (h : lookupCodes cs off l = .error e) :
    ∃ before c after, l = before ++ c :: after ∧ (∀ d ∈ before, (cs.char? d.code).isSome = true) ∧
      cs.char? c.code = none ∧ e = .badCharCode c.code c.pos off := by
  induction l with
  | nil => simp at h
  | cons c rest ih =>
    cases hc : cs.char? c.code with
    | none =>
      rw [lookupCodes_cons_of_none hc, Except.error.injEq] at h
      exact ⟨[], c, rest, rfl, by simp, hc, h.symm⟩
    | some ch =>
      rw [lookupCodes_cons_of_some hc] at h
      cases hr : lookupCodes cs off rest with
      | ok str => simp [hr, Except.map] at h
      | error e' =>
        obtain rfl : e' = e := by simpa [hr, Except.map] using h
        obtain ⟨before, d, after, rfl, hbefore, hd, he⟩ := ih hr
        exact ⟨c :: before, d, after, rfl, List.forall_mem_cons.mpr ⟨by simp [hc], hbefore⟩, hd, he⟩

/-- What a character adds to the text is what is left of it without spaces (R154). -/
theorem emitChar_eq_filter (ch : Char) : emitChar ch = [ch].filter (· ≠ ' ') := by
  by_cases h : ch = ' ' <;> simp [emitChar, h]

/-- Where every code has a character, the text is those characters without the spaces. -/
theorem lookupCodes_of_defined {l : List PackedCode} {chars : List Char}
    (h : l.map (fun c => cs.char? c.code) = chars.map some) :
    lookupCodes cs off l = .ok (chars.filter (· ≠ ' ')) := by
  induction l generalizing chars with
  | nil =>
    obtain rfl : chars = [] := by simpa using h.symm
    rfl
  | cons c rest ih =>
    cases chars with
    | nil => simp at h
    | cons ch chars =>
      rw [List.map_cons, List.map_cons, List.cons.injEq] at h
      obtain ⟨hc, hrest⟩ := h
      rw [lookupCodes_cons_of_some hc, ih hrest, emitChar_eq_filter, Except.map, ← List.filter_append,
        List.singleton_append]

end

/-- Settles O17: the codes before the first undefined one have characters, so its failure is the word's. -/
theorem firstUndefinedCodeReported : Obligations.FirstUndefinedCodeReported := by
  intro cs offset p e
  constructor
  · exact exists_first_undefined_of_lookupCodes_error
  · rintro ⟨before, c, after, hsplit, hbefore, hc, rfl⟩
    rw [unpack, hsplit]
    exact lookupCodes_append_of_error hbefore (lookupCodes_cons_of_none hc after)

/-- Settles O18, for the list of the word's codes as for any list of codes. -/
theorem definedCodesGiveText : Obligations.DefinedCodesGiveText :=
  fun _ _ _ _ h => lookupCodes_of_defined h

theorem lt_of_inCharDomain {code : Nat} (h : inCharDomain code = true) : code < 128 := by
  rcases codeBits_cases h with ⟨h, _⟩ | ⟨_, h, _⟩ | ⟨_, h, _⟩ <;> omega

/-- A full table has a character for every code of the domain. -/
theorem char?_isSome_of_full {cs : CharSet} (hfull : cs.full = true) {code : Nat}
    (h : inCharDomain code = true) : (cs.char? code).isSome = true := by
  have hcode := List.all_eq_true.mp hfull code (List.mem_range.mpr (lt_of_inCharDomain h))
  rw [h, Bool.not_true, Bool.false_or] at hcode
  exact hcode

/-- Settles O19: every code of a word is in the domain, so each has a character, and the text is those at most seven
characters without the spaces. -/
theorem fullTableNeverFails : Obligations.FullTableNeverFails := by
  intro cs offset p hfull
  have hdefined : (codesOf p).map (fun c => cs.char? c.code) ∈ Set.range (List.map some) := by
    rw [Set.range_list_map]
    refine List.forall_mem_map.mpr fun c hc => ?_
    obtain ⟨ch, hch⟩ := Option.isSome_iff_exists.mp (char?_isSome_of_full hfull (mem_codesOf hc).2)
    exact ⟨ch, hch.symm⟩
  obtain ⟨chars, hchars⟩ := hdefined
  have htext : unpack cs offset p = .ok (chars.filter (· ≠ ' ')) := definedCodesGiveText cs offset p chars hchars.symm
  exact ⟨_, htext, (lookupCodes_length htext).trans (codesOf_length_le p), by simp⟩

/-! ### The case policy (R157, R158) -/

theorem upper_of_not_lower {ch : Char} (h : ¬ (97 ≤ ch.toNat ∧ ch.toNat ≤ 122)) : upper ch = ch := if_neg h

theorem upper_toNat_of_lower {ch : Char} (h : 97 ≤ ch.toNat ∧ ch.toNat ≤ 122) :
    (upper ch).toNat + 32 = ch.toNat := by
  have hvalid : (ch.toNat - 32).isValidChar := .inl (by omega)
  rw [upper, if_pos h, Char.toNat_ofNat, if_pos hvalid]
  omega

/-- An upper-cased character is no lower-case letter, so `Upper` leaves it. -/
theorem upper_upper (ch : Char) : upper (upper ch) = upper ch := by
  by_cases h : 97 ≤ ch.toNat ∧ ch.toNat ≤ 122
  · have hup := upper_toNat_of_lower h
    exact upper_of_not_lower (by omega)
  · rw [upper_of_not_lower h, upper_of_not_lower h]

theorem applyCase_cap (str : List Char) : applyCase .cap str = (str.take 1).map upper ++ str.drop 1 := by
  cases str <;> rfl

/-- Settles O20; only the first character of a text is changed by `cap`. -/
theorem casePolicyActsOnLetters : Obligations.CasePolicyActsOnLetters :=
  ⟨fun ch => ⟨upper_toNat_of_lower, upper_of_not_lower, upper_upper ch⟩, fun str => ⟨rfl, rfl, applyCase_cap str⟩⟩

/-! ### The text instructions (R160 to R169) -/

/-- Settles O10: each of the three is ExecText with its settled row. -/
theorem fixedTextWordsComplete : Obligations.FixedTextWordsComplete := fun _ _ _ h =>
  ⟨execText_of_unpack_ok h .cont .none, execText_of_unpack_ok h (.hue .white) .none,
    execText_of_unpack_ok h (.hue .magenta) .none⟩

/-- Settles O11: each of the two is ExecText with its settled case flag; an empty text has no first character. -/
theorem casedTextWordsComplete : Obligations.CasedTextWordsComplete := by
  intro s p str h
  refine ⟨?_, execText_of_unpack_ok h (.hue s.cfg.ftable.colourB) .upper⟩
  have hcap := execText_of_unpack_ok h (.hue s.cfg.ftable.colourA) .cap
  cases str with
  | nil => exact hcap
  | cons ch rest => exact hcap

/-- A word of format T whose open row is a text row merges its text in the row's colour. -/
theorem dispatch_wordTU_of_openText {s : State} {p : Payload} {f : FCode} {str : List Char} {o : OpenRow} {h : Hue}
    (hok : unpack s.cfg.charset (s.cur - 4) p = .ok str) (hrow : s.cfg.ftable.row f = o.toRow) (ho : o = .text h) :
    dispatch (wordTU p f) s = .next (merge ⟨.hue h, str⟩ s) := by
  rw [dispatch, fcode_wordTU, hrow, ho, OpenRow.toRow, dispatchRow, payload_wordTU]
  exact execText_of_unpack_ok hok (.hue h) .none

/-- Settles O12: each of the five is dispatched on its open row. -/
theorem openTextWordsComplete : Obligations.OpenTextWordsComplete := fun _ _ _ _ hok =>
  ⟨dispatch_wordTU_of_openText (f := 1) hok rfl, dispatch_wordTU_of_openText (f := 3) hok rfl,
    dispatch_wordTU_of_openText (f := 4) hok rfl, dispatch_wordTU_of_openText (f := 7) hok rfl,
    dispatch_wordTU_of_openText (f := 14) hok rfl⟩

end Sys2Proof.Machine

/-! ## 42_number: two's-complement values, the digits of a number, and the number instructions -/

namespace Sys2Proof.Machine

/-! ### Two's complement (R190, R199) -/

/-- Settles O21: the value and its range are those of the pattern as a bit vector's signed value. -/
theorem twosComplementValue : Obligations.TwosComplementValue := by
  intro v w hw hv
  obtain ⟨x, rfl⟩ : ∃ x : BitVec w, x.toNat = v := ⟨BitVec.ofNatLT v hv, rfl⟩
  rw [tc_toNat hw]
  refine ⟨?value, x.le_toInt, Int.le_sub_one_of_lt x.toInt_lt⟩
  have hpow : 2 ^ w = 2 * 2 ^ (w - 1) := (mul_pow_sub_one (by omega) 2).symm
  have hhalf : 2 * x.toNat < 2 ^ w ↔ x.toNat < 2 ^ (w - 1) := by omega
  simp only [BitVec.toInt_eq_toNat_cond, hhalf, Nat.cast_pow, Nat.cast_ofNat]

/-- Settles O22: the signed value is the pattern up to a multiple of `2^w`, and the pattern of an integer is the bit
vector of its residue. -/
theorem twosComplementInverts : Obligations.TwosComplementInverts := by
  refine ⟨fun v w hw hv => ?residue, fun n w hw hlo hhi => ?surjective⟩
  case residue =>
    obtain ⟨x, rfl⟩ : ∃ x : BitVec w, x.toNat = v := ⟨BitVec.ofNatLT v hv, rfl⟩
    have hemod : x.toInt % ((2 ^ w : Nat) : Int) = x.toNat := by
      rw [BitVec.toInt_eq_toNat_bmod, Int.bmod_emod, ← Int.natCast_mod, Nat.mod_eq_of_lt hv]
    rw [tc_toNat hw]
    exact_mod_cast hemod
  case surjective =>
    refine ⟨(BitVec.ofInt w n).toNat, BitVec.isLt _, ?_, ?_⟩
    · rw [BitVec.toNat_ofInt, Int.toNat_of_nonneg (Int.emod_nonneg n (by positivity)), Nat.cast_pow, Nat.cast_ofNat]
    · rw [tc_toNat hw, BitVec.toInt_ofInt_eq_self hw hlo (by omega)]

/-! ### The digits of a number (R8, R193, R194) -/

theorem digitChar_toNat {d : Nat} (h : d < 16) : (digitChar d).toNat = if d < 10 then 48 + d else 87 + d := by
  have hsmall : (48 + d).isValidChar := .inl (by omega)
  have hlarge : (87 + d).isValidChar := .inl (by omega)
  rw [digitChar, apply_ite Char.toNat, Char.toNat_ofNat, Char.toNat_ofNat, if_pos hsmall, if_pos hlarge]

theorem digitChar_ne_zero {d : Nat} (h : d < 16) (hd : d ≠ 0) : digitChar d ≠ '0' := by
  intro heq
  have hval : (if d < 10 then 48 + d else 87 + d) = 48 := by rw [← digitChar_toNat h, heq]; rfl
  split at hval <;> omega

section
variable {b : Nat} (hb : 2 ≤ b)
include hb

/-- Induction on a number's digits: a single digit, or the quotient's digits followed by the last one. -/
theorem digits_induction {motive : Nat → List Char → Prop}
    (single : ∀ n, n < b → motive n [digitChar n])
    (more : ∀ n, b ≤ n → motive (n / b) (digits b (n / b)) → motive n (digits b (n / b) ++ [digitChar (n % b)]))
    (n : Nat) : motive n (digits b n) := by
  induction n using Nat.strongRecOn with
  | ind n ih =>
    by_cases hn : n < b
    · rw [digits_small hn]
      exact single n hn
    · rw [digits_large hb hn]
      exact more n (by omega) (ih _ (Nat.div_lt_self (by omega) hb))

/-- Every character is that of a digit below the base. -/
theorem exists_digit_of_mem_digits {n : Nat} {ch : Char} : ch ∈ digits b n → ∃ d, d < b ∧ ch = digitChar d := by
  induction n using digits_induction hb with
  | single n hn => exact fun hmem => ⟨n, hn, List.mem_singleton.mp hmem⟩
  | more n _ ih =>
    intro hmem
    rcases List.mem_append.mp hmem with hinit | hlast
    · exact ih hinit
    · exact ⟨n % b, Nat.mod_lt n (by omega), List.mem_singleton.mp hlast⟩

/-- Reading the characters in base `b`, each for its digit, gives the number back. -/
theorem foldl_digits {val : Char → Nat} (hval : ∀ d, d < b → val (digitChar d) = d) (n : Nat) :
    (digits b n).foldl (fun acc ch => b * acc + val ch) 0 = n := by
  induction n using digits_induction hb with
  | single n hn => simp [hval n hn]
  | more n _ ih =>
    rw [List.foldl_concat, ih, hval _ (Nat.mod_lt n (by omega)), Nat.div_add_mod]

/-- The first digit of a number other than zero is not zero. -/
theorem head?_digits {n : Nat} : n ≠ 0 → ∃ d, d ≠ 0 ∧ d < b ∧ (digits b n).head? = some (digitChar d) := by
  induction n using digits_induction hb with
  | single n hn => exact fun hn0 => ⟨n, hn0, hn, rfl⟩
  | more n hn ih =>
    intro _
    obtain ⟨d, hd0, hd, hhead⟩ := ih (Nat.div_pos hn (by omega)).ne'
    exact ⟨d, hd0, hd, by rw [List.head?_append, hhead, Option.some_or]⟩

theorem head?_digits_ne_zero (hb16 : b ≤ 16) {n : Nat} (hn : n ≠ 0) : (digits b n).head? ≠ some '0' := by
  obtain ⟨d, hd0, hd, hhead⟩ := head?_digits hb hn
  rw [hhead]
  exact fun heq => digitChar_ne_zero (by omega) hd0 (Option.some.inj heq)

end

/-- Settles O23: the digits in base ten, each character `48` and its digit. -/
theorem decimalDigitsDenote : Obligations.DecimalDigitsDenote := by
  refine fun n => ⟨fun ch hch => ?chars, ?value, fun hn => hn ▸ rfl, head?_digits_ne_zero (by omega) (by omega)⟩
  case chars =>
    obtain ⟨d, hd, rfl⟩ := exists_digit_of_mem_digits (by omega) hch
    rw [digitChar_toNat (by omega), if_pos hd]
    omega
  case value =>
    refine foldl_digits (by omega) (val := fun ch => ch.toNat - 48) (fun d hd => ?_) n
    rw [digitChar_toNat (by omega), if_pos hd]
    omega

/-- Settles O24: the digits in base sixteen, those from ten on being letters. -/
theorem hexDigitsDenote : Obligations.HexDigitsDenote := by
  refine fun n => ⟨fun ch hch => ?chars, ?value, fun hn => hn ▸ rfl, head?_digits_ne_zero (by omega) (by omega)⟩
  case chars =>
    obtain ⟨d, hd, rfl⟩ := exists_digit_of_mem_digits (by omega) hch
    rw [digitChar_toNat hd]
    split <;> omega
  case value =>
    refine foldl_digits (by omega) (val := fun ch => if ch.toNat ≤ 57 then ch.toNat - 48 else ch.toNat - 87)
      (fun d hd => ?_) n
    simp only [digitChar_toNat hd]
    split <;> split <;> omega

/-! ### The text of a number (R193, R194) -/

theorem render_of_nonneg (h : Bool) {n : Int} (hn : 0 ≤ n) :
    render h n = bif h then '$' :: hexl n.toNat else '#' :: dec n.toNat := by
  obtain ⟨k, rfl⟩ := Int.eq_ofNat_of_zero_le hn
  cases h <;> rfl

theorem render_of_neg (h : Bool) {n : Int} (hn : n < 0) :
    render h n = bif h then '$' :: '-' :: hexl (-n).toNat else '#' :: '-' :: dec (-n).toNat := by
  obtain ⟨k, rfl⟩ := Int.eq_negSucc_of_lt_zero hn
  cases h <;> rfl

/-- Settles O25: the texts with `H = 0`. -/
theorem decimalRendering : Obligations.DecimalRendering := fun _ => ⟨render_of_nonneg false, render_of_neg false⟩

/-- Settles O26: the texts with `H = 1`. -/
theorem hexRendering : Obligations.HexRendering := fun _ => ⟨render_of_nonneg true, render_of_neg true⟩

theorem render_zero (h : Bool) : render h 0 = if h then ['$', '0'] else ['#', '0'] := by
  cases h <;> rfl

/-! ### The number instructions (R195 to R204) -/

/-- A short number merges the signed value of its 27 bits (42_number R195). -/
theorem execShort_eq (col : Colour) (m : Field27) (h : Bool) (s : State) :
    execShort col m h s = .next (merge ⟨col, render h m.toInt⟩ s) := by
  rw [execShort, shortToken, tc_toNat (by decide)]
  rfl

/-- A word of format S whose open row is a short number merges its number in the row's colour. -/
theorem dispatch_wordSL_of_openShort {s : State} {m : Field27} {h : Bool} {f : FCode} {o : OpenRow} {hue : Hue}
    (hrow : s.cfg.ftable.row f = o.toRow) (ho : o = .short hue) :
    dispatch (wordSL m h f) s = .next (merge ⟨.hue hue, render h m.toInt⟩ s) := by
  rw [dispatch, fcode_wordSL, hrow, ho, OpenRow.toRow, dispatchRow, field27_wordSL, hexFlag_wordSL]
  exact execShort_eq (.hue hue) m h s

/-- A word of format L whose open row is a long number is that number, whatever its ignored bits. -/
theorem dispatch_wordSL_of_openLong {s : State} {x : Field27} {h : Bool} {f : FCode} {o : OpenRow} {hue : Hue}
    (hrow : s.cfg.ftable.row f = o.toRow) (ho : o = .long hue) :
    dispatch (wordSL x h f) s = execLong (.hue hue) h s := by
  rw [dispatch, fcode_wordSL, hrow, ho, OpenRow.toRow, dispatchRow, hexFlag_wordSL]

/-- Settles O27: SNUM.8 has its settled row, the other two are dispatched on their open rows. -/
theorem shortNumbersComplete : Obligations.ShortNumbersComplete := fun s m h _ =>
  ⟨execShort_eq (.hue .yellow) m h s, dispatch_wordSL_of_openShort (f := 6) rfl,
    dispatch_wordSL_of_openShort (f := 13) rfl⟩

/-- Settles O28: LNUM.2 has its settled row, LNUM.5 is dispatched on its open row. -/
theorem longNumbersTakeSecondWord : Obligations.LongNumbersTakeSecondWord := fun _ _ h hue _ hc hw =>
  ⟨execLong_of_word hc hw (.hue .yellow) h, fun hrow =>
    (dispatch_wordSL_of_openLong (f := 5) rfl hrow).trans (execLong_of_word hc hw (.hue hue) h)⟩

/-- Settles O29: the fetch moves the cursor to the Block's end, where the row's operation finds no second word. -/
theorem longNumberWithoutSecondWord : Obligations.LongNumberWithoutSecondWord := by
  intro s w col cf hg hb hr hc hw hrow
  have hfetch : step s = exec (decodeWord w) (s.setCur 1024) := by
    rw [step_of_word hg hb hr (by omega) (by rwa [hc]), hc]
  rw [hfetch, exec_decodeWord_of_longNumber (s := s.setCur 1024) hrow, execLong_at_end le_rfl, render_zero]

end Sys2Proof.Machine

/-! ## 43_merge_block: the merger, the steps of a Block, and whole runs -/

namespace Sys2Proof.Machine

/-! ### The merge step, case by case (R231) -/

section
variable {t w : Token} {s : State}

theorem merge_of_none (hw : s.wt = none) : merge t s = s.setWt (some t) := by
  rw [merge, hw]

theorem merge_of_cont (hw : s.wt = some w) (hc : t.colour = .cont) :
    merge t s = s.setWt (some ⟨w.colour, w.value ++ t.value⟩) := by
  rw [merge, hw]
  exact if_pos hc

theorem merge_of_ne_cont (hw : s.wt = some w) (hc : t.colour ≠ .cont) :
    merge t s = (s.setOutbuf (s.outbuf ++ [w])).setWt (some t) := by
  rw [merge, hw]
  exact if_neg hc

end

/-- The merge step writes `WT` and `OUTBUF` only. -/
theorem merge_frame (t : Token) (s : State) :
    ((merge t s).setWt none).setOutbuf [] = (s.setWt none).setOutbuf [] := by
  rcases merge_cases t s with ⟨_, hm⟩ | ⟨_, _, _, hm⟩ | ⟨_, _, _, hm⟩ <;> rw [hm] <;> rfl

/-- Settles O34: one equation for each case of the merge step, and its frame. -/
theorem mergeStep : Obligations.MergeStep := by
  intro t s
  refine ⟨fun hw => ?_, fun w hw hc => ?_, fun w hw hc => ?_, merge_frame t s⟩
  · rw [merge_of_none hw]
    exact ⟨rfl, rfl⟩
  · rw [merge_of_cont hw hc]
    exact ⟨rfl, rfl⟩
  · rw [merge_of_ne_cont hw hc]
    exact ⟨rfl, rfl⟩

/-- Settles O35: CONT.0 merges its text in the continuation's colour, with a working token or without. -/
theorem continuationAppendsOrLeads : Obligations.ContinuationAppendsOrLeads := by
  intro s p str hok
  obtain ⟨hcont, _, _⟩ := fixedTextWordsComplete s p str hok
  refine ⟨_, hcont, ?_⟩
  cases hw : s.wt with
  | none =>
    rw [merge_of_none hw]
    exact ⟨rfl, rfl⟩
  | some w =>
    rw [merge_of_cont hw rfl]
    exact ⟨rfl, rfl⟩

/-! ### Streaming merge and batch fold (R241) -/

/-- The tokens a Block has once the raw tokens `ts` follow what `OUTBUF` and `WT` hold: those emitted, then the fold
from the working token on. -/
def pendingTokens (s : State) (ts : List Token) : List Token := s.outbuf ++ foldTokens (s.wt.toList ++ ts)

/-- With no raw token to come, those are the tokens that the flush leaves in `OUTBUF` (R232). -/
theorem pendingTokens_nil (s : State) : pendingTokens s [] = s.outbuf ++ s.wt.toList := by
  unfold pendingTokens
  cases s.wt <;> rfl

/-- In a Block without a token yet they are the whole fold. -/
theorem pendingTokens_of_empty {s : State} (hw : s.wt = none) (ho : s.outbuf = []) (ts : List Token) :
    pendingTokens s ts = foldTokens ts := by
  rw [pendingTokens, hw, ho]
  rfl

/-- Merging the first raw token at once does not change them. -/
theorem pendingTokens_merge (t : Token) (s : State) (ts : List Token) :
    pendingTokens (merge t s) ts = pendingTokens s (t :: ts) := by
  rcases merge_cases t s with ⟨hw, hm⟩ | ⟨w, hw, hc, hm⟩ | ⟨w, hw, hc, hm⟩ <;>
    simp only [pendingTokens, hm, State.setWt_wt, State.setWt_outbuf, State.setOutbuf_outbuf, hw]
  · rfl
  · simp [foldTokens, foldFrom, hc]
  · simp [foldTokens, foldFrom, hc]

/-- Merging all raw tokens and flushing leaves them in `OUTBUF`. -/
theorem flush_foldl_merge_outbuf (ts : List Token) (s : State) :
    (flush (ts.foldl (fun acc t => merge t acc) s)).outbuf = pendingTokens s ts := by
  induction ts generalizing s with
  | nil => rw [pendingTokens_nil, List.foldl_nil, flush_eq, State.setOutbuf_outbuf]
  | cons t ts ih => rw [List.foldl_cons, ih, pendingTokens_merge]

/-- Settles O37: merging keeps the pending tokens, and before the first merge they are the fold. -/
theorem streamingFoldIsBatchFold : Obligations.StreamingFoldIsBatchFold := by
  intro s ts hw ho
  rw [flush_foldl_merge_outbuf, pendingTokens_of_empty hw ho]

end Sys2Proof.Machine

namespace Sys2Proof.Machine

/-! ### Words of the buffer, and the start of a step (R51, R236) -/

/-- The first four of the bytes that lay out `v` make the word of its low 32 bits (20_memory R52). -/
theorem wordOfBytes_ofNat (v : Nat) : wordOfBytes (BitVec.ofNat 8 v) (BitVec.ofNat 8 (v / 256))
    (BitVec.ofNat 8 (v / 256 / 256)) (BitVec.ofNat 8 (v / 256 / 256 / 256)) = BitVec.ofNat 32 v := by
  apply BitVec.eq_of_toNat_eq
  simp only [wordOfBytes_toNat, BitVec.toNat_ofNat]
  omega

/-- A table word decodes as its low 32 bits do. -/
theorem decodeTableWord_eq (nbits w : Nat) :
    decodeTableWord nbits w = some (decodeWord (BitVec.ofNat 32 (w % 2 ^ nbits))) := by
  rw [← wordOfBytes_ofNat]
  rfl

/-- Stored bytes that lay out `v`, four or more of them, are read as the word of its low 32 bits. -/
theorem Buf.word?_setBytes_leBytes {b : Buf} (hb : b.wf = true) {a n v : Nat} (ha : a + (n + 4) ≤ b.len) :
    (b.setBytes a (leBytes (n + 4) v)).word? a = some (BitVec.ofNat 32 v) := by
  have hlen : a + (leBytes (n + 4) v).length ≤ b.len := by rwa [leBytes_length]
  have hbyte {i : Nat} (hi : i < n + 4) :
      (b.setBytes a (leBytes (n + 4) v)).get? (a + i) = some ((leBytes (n + 4) v)[i]'(by rwa [leBytes_length])) :=
    Buf.get?_setBytes hb hlen _
  rw [← wordOfBytes_ofNat]
  exact Buf.word?_of_get? (hbyte (i := 0) (by omega)) (hbyte (i := 1) (by omega)) (hbyte (i := 2) (by omega))
    (hbyte (i := 3) (by omega))

/-- Settles O38: the four bytes are the word at the cursor. -/
theorem stepRunsDecodedInstruction : Obligations.StepRunsDecodedInstruction := by
  intro s b0 b1 b2 b3 i hg hb hr hc h0 h1 h2 h3 hdec
  obtain rfl : decodeWord (wordOfBytes b0 b1 b2 b3) = i := by simpa [decode] using hdec
  exact step_of_word hg hb hr hc (Buf.word?_of_get? h0 h1 h2 h3)

/-! ### The state that holds a placed word (log 5) -/

/-- The placed word goes to an aligned offset with room for a word. -/
theorem placeCur_bounds (s : State) : placeCur s % 4 = 0 ∧ placeCur s < 1024 := by
  unfold placeCur
  split
  · assumption
  · decide

theorem placeRoom_wf {s : State} (h : s.buf.wf = true) : (placeRoom s).wf = true :=
  cellsWf_len h (Nat.le_max_left _ _)

/-- The extended buffer holds Block `BLK`. -/
theorem le_placeRoom_len (s : State) : 1024 * (s.blk + 1) ≤ (placeRoom s).len := Nat.le_max_right _ _

section
variable (s : State) (nbits w : Nat)

theorem withFetchWord_gst : (s.withFetchWord nbits w).gst = .busy := rfl
theorem withFetchWord_st : (s.withFetchWord nbits w).st = .run := rfl
theorem withFetchWord_cur : (s.withFetchWord nbits w).cur = placeCur s := rfl

theorem withFetchWord_blk : (s.withFetchWord nbits w).blk = s.blk := by
  simp [State.withFetchWord, placeFetchWord]

theorem withFetchWord_buf_len : (s.withFetchWord nbits w).buf.len = (placeRoom s).len := by
  simp [State.withFetchWord, placeFetchWord]

/-- The Block of the placed state is in its buffer. -/
theorem withFetchWord_blk_lt_blocks : (s.withFetchWord nbits w).blk < (s.withFetchWord nbits w).buf.blocks := by
  have hroom := le_placeRoom_len s
  rw [Buf.blocks, withFetchWord_buf_len, withFetchWord_blk]
  omega

/-- The placed word is the one at the cursor of the placed state. -/
theorem withFetchWord_word? (h : s.buf.wf = true) :
    (s.withFetchWord nbits w).buf.word? (1024 * (s.withFetchWord nbits w).blk + (s.withFetchWord nbits w).cur) =
      some (BitVec.ofNat 32 (w % 2 ^ nbits)) := by
  obtain ⟨hal, hlt⟩ := placeCur_bounds s
  have hroom := le_placeRoom_len s
  have hwf := placeRoom_wf h
  rw [withFetchWord_blk, withFetchWord_cur]
  simp only [State.withFetchWord, placeFetchWord, State.setSt_buf, State.setGst_buf, State.setCur_buf,
    State.setBuf_buf]
  split
  · exact Buf.word?_setBytes_leBytes (n := 4) hwf (by omega)
  · exact Buf.word?_setBytes_leBytes (n := 0) hwf (by omega)

end

/-- Settles O39: the placed state is in a running Block whose next word is the placed one. -/
theorem placedWordRunsNext : Obligations.PlacedWordRunsNext := by
  intro s nbits w i hwf hdec
  obtain rfl : decodeWord (BitVec.ofNat 32 (w % 2 ^ nbits)) = i := by simpa [decodeTableWord_eq] using hdec
  exact step_of_word (withFetchWord_gst s nbits w) (withFetchWord_blk_lt_blocks s nbits w)
    (withFetchWord_st s nbits w) (placeCur_bounds s).2 (withFetchWord_word? s nbits w hwf)

/-! ### Where a run and a Block begin and end (R237 to R239) -/

theorem step_of_idle {s : State} (hg : s.gst = .idle) : step s = .next (startRun s) := by
  rw [step, hg]

/-- A buffer of whole Blocks: the first Block is entered, or the run is over (R239). -/
theorem startRun_of_blocks {s : State} (h : s.buf.len % 1024 = 0) :
    startRun s = enterBlock (((s.setResults []).setBlk 0).setGst .busy) := if_pos h

theorem startRun_of_badLength {s : State} (h : s.buf.len % 1024 ≠ 0) :
    startRun s = ((s.setResults []).setBlk 0).setGst .rejected := if_neg h

/-- Settles O40: the three ways a run can start are the three lengths; a buffer of whole Blocks has one exactly if it is
not empty. -/
theorem runStartAcceptsOrRejects : Obligations.RunStartAcceptsOrRejects := by
  intro s hg
  refine ⟨startRun s, step_of_idle hg, ?_⟩
  have hblocks : 0 < s.buf.blocks ↔ 1024 ≤ s.buf.len := by
    rw [Buf.blocks]
    omega
  rcases startRun_cases s with ⟨hlen, hb, hs⟩ | ⟨hlen, hb, hs⟩ | ⟨hlen, hs⟩ <;> rw [hs]
  · rw [hblocks] at hb
    exact ⟨rfl, rfl, fun hl => absurd hlen hl, fun _ => by omega, fun _ _ => rfl⟩
  · rw [hblocks] at hb
    exact ⟨rfl, rfl, fun hl => absurd hlen hl, fun _ => rfl, fun _ _ => by omega⟩
  · exact ⟨rfl, rfl, fun _ => rfl, fun _ => by omega, fun hl => absurd hl hlen⟩

/-- The end of a Block is a commit like that of a failure, of the flushed tokens. -/
theorem endBlock_eq (s : State) : endBlock s = nextBlock (commit (.tokens (s.outbuf ++ s.wt.toList))
    ((s.setOutbuf (s.outbuf ++ s.wt.toList)).setSt .done)) := by
  rw [endBlock, flush_eq]
  rfl

/-- Settles O42: the step is the end of the Block, whose two cases are the next Block's reset and the end of the run. -/
theorem blockEndCommitsTokens : Obligations.BlockEndCommitsTokens := by
  intro s w hg hb hr hc hw
  refine ⟨endBlock s, step_at_end hg hb hr (by omega), endBlock_blk s, ?_, ?_⟩
  · rw [endBlock_results, hw, Option.toList_some]
  · rcases endBlock_cases s with ⟨hnext, he⟩ | ⟨hlast, he⟩ <;> rw [he]
    · exact ⟨fun _ => by simp [hg], fun heq => by omega⟩
    · exact ⟨fun hlt => absurd hlt hlast, fun _ => by simp [hw]⟩

/-- Settles O43: the instruction is that of its word, whose row takes the failure of the text. -/
theorem badCodeFailsBlock : Obligations.BadCodeFailsBlock := by
  intro i s col cat cf e hrow hcat herr
  have hexec := exec_decodeWord_of_text hrow hcat
  rw [decodeWord_encodeWord, execText_of_unpack_error herr] at hexec
  refine ⟨failBlock e s, hexec, failBlock_blk s e, failBlock_results e s, ?_⟩
  rcases failBlock_cases e s with ⟨hnext, hf⟩ | ⟨hlast, hf⟩ <;> rw [hf]
  · exact ⟨fun _ => by simp, fun hno => absurd hnext hno⟩
  · exact ⟨fun hlt => absurd hlt hlast, fun _ => by simp⟩

end Sys2Proof.Machine

namespace Sys2Proof.Machine

/-! ### START numbers the results (R243) -/

/-- The machine with another `START` and another list of results. -/
def renumber (n : Nat) (rs : List (Nat × DecodeResult)) (s : State) : State := (s.setStart n).setResults rs

section
variable (n : Nat) (rs : List (Nat × DecodeResult)) (s : State)

theorem merge_renumber (tok : Token) : merge tok (renumber n rs s) = renumber n rs (merge tok s) := by
  rcases merge_cases tok s with ⟨hw, hm⟩ | ⟨w, hw, hc, hm⟩ | ⟨w, hw, hc, hm⟩ <;> rw [hm]
  · exact merge_of_none hw
  · exact merge_of_cont hw hc
  · exact merge_of_ne_cont hw hc

theorem enterBlock_renumber : enterBlock (renumber n rs s) = renumber n rs (enterBlock s) := by
  rcases enterBlock_cases s with ⟨hb, he⟩ | ⟨hb, he⟩ <;> rw [he]
  · exact if_pos hb
  · exact if_neg hb

/-- A committed result has the Block's number from the other `START`. -/
theorem nextBlock_commit_renumber (r : DecodeResult) : nextBlock (commit r (renumber n rs s)) =
    renumber n (rs ++ [(n + s.blk, r)]) (nextBlock (commit r s)) :=
  enterBlock_renumber n (rs ++ [(n + s.blk, r)]) ((commit r s).setBlk (s.blk + 1))

theorem failBlock_renumber (e : HardFailure) :
    failBlock e (renumber n rs s) = renumber n (rs ++ [(n + s.blk, DecodeResult.error e)]) (failBlock e s) :=
  nextBlock_commit_renumber n rs ((s.setErr (some e)).setSt .failed) (.error e)

theorem endBlock_renumber : endBlock (renumber n rs s) =
    renumber n (rs ++ [(n + s.blk, DecodeResult.tokens (s.outbuf ++ s.wt.toList))]) (endBlock s) := by
  rw [endBlock_eq, endBlock_eq]
  exact nextBlock_commit_renumber n rs ((s.setOutbuf (s.outbuf ++ s.wt.toList)).setSt .done) _

theorem startRun_renumber : startRun (renumber n rs s) = renumber n [] (startRun s) := by
  by_cases hlen : s.buf.len % 1024 = 0
  · rw [startRun_of_blocks hlen, startRun_of_blocks (s := renumber n rs s) hlen]
    exact enterBlock_renumber n [] (((s.setResults []).setBlk 0).setGst .busy)
  · rw [startRun_of_badLength hlen, startRun_of_badLength (s := renumber n rs s) hlen]
    rfl

end

@[simp] theorem startRun_results (s : State) : (startRun s).results = [] := by
  rcases startRun_cases s with ⟨_, _, hs⟩ | ⟨_, _, hs⟩ | ⟨_, hs⟩ <;> rw [hs] <;> rfl

/-- `t` is `s` but for `START`, which is `n` in `t`, and the numbers of the results. -/
def Renumbered (n : Nat) (s t : State) : Prop :=
  ∃ rs, t = renumber n rs s ∧ rs.map Prod.snd = s.results.map Prod.snd

/-- Where the first answer is a next state, so is the second, and it is the same but for the numbers. -/
def AnswersRenumbered (n : Nat) (rs rt : Result) : Prop :=
  ∀ s', rs = .next s' → ∃ t', rt = .next t' ∧ Renumbered n s' t'

theorem AnswersRenumbered.of_next {n : Nat} {s t : State} (h : Renumbered n s t) :
    AnswersRenumbered n (.next s) (.next t) := by
  rintro s' hs
  obtain rfl : s = s' := by simpa using hs
  exact ⟨t, rfl, h⟩

theorem AnswersRenumbered.of_fault {n : Nat} {r : Fault} {rt : Result} : AnswersRenumbered n (.fault r) rt :=
  fun _ h => by simp at h

/-- One more result, whatever its number in either machine. -/
theorem map_snd_append_singleton {rs rs' : List (Nat × DecodeResult)} (h : rs.map Prod.snd = rs'.map Prod.snd)
    (a b : Nat) (r : DecodeResult) : (rs ++ [(a, r)]).map Prod.snd = (rs' ++ [(b, r)]).map Prod.snd := by
  rw [List.map_append, List.map_append, h]
  rfl

section
variable {n : Nat} {s t : State} (h : Renumbered n s t)
include h

theorem Renumbered.complete_alike (r : Except HardFailure Token) :
    AnswersRenumbered n (complete r s) (complete r t) := by
  obtain ⟨rs, rfl, hrs⟩ := h
  cases r with
  | ok tok => exact .of_next ⟨rs, merge_renumber n rs s tok, by rwa [merge_results]⟩
  | error e =>
    refine .of_next ⟨_, failBlock_renumber n rs s e, ?_⟩
    rw [failBlock_results]
    exact map_snd_append_singleton hrs _ _ _

theorem Renumbered.after_setCur (c : Nat) : Renumbered n (s.setCur c) (t.setCur c) := by
  obtain ⟨rs, rfl, hrs⟩ := h
  exact ⟨rs, rfl, hrs⟩

theorem Renumbered.after_warnUnknown : Renumbered n (warnUnknown s) (warnUnknown t) := by
  obtain ⟨rs, rfl, hrs⟩ := h
  exact ⟨rs, rfl, hrs⟩

theorem Renumbered.cfg_eq : t.cfg = s.cfg := by
  obtain ⟨_, rfl, _⟩ := h
  rfl

theorem Renumbered.cur_eq : t.cur = s.cur := by
  obtain ⟨_, rfl, _⟩ := h
  rfl

/-- Both machines read the same word, or none. -/
theorem Renumbered.nextWord_renumbered : nextWord t = (nextWord s).map fun r => (r.1, t.setCur (s.cur + 4)) := by
  obtain ⟨_, rfl, _⟩ := h
  rw [nextWord, nextWord, Option.map_map]
  rfl

theorem Renumbered.execText_alike (col : Colour) (cf : CaseFlag) (p : Payload) :
    AnswersRenumbered n (execText col cf p s) (execText col cf p t) := by
  rw [execText, execText, h.cfg_eq, h.cur_eq]
  exact h.complete_alike _

theorem Renumbered.execLong_alike (col : Colour) (hex : Bool) :
    AnswersRenumbered n (execLong col hex s) (execLong col hex t) := by
  rw [execLong, execLong, h.cur_eq, h.nextWord_renumbered]
  split
  · cases hn : nextWord s with
    | none => exact .of_fault
    | some r =>
      obtain ⟨_, hs1⟩ := nextWord_eq hn
      have hdone := (h.after_setCur (s.cur + 4)).complete_alike (.ok (longToken col hex r.1))
      rwa [← hs1] at hdone
  · exact h.complete_alike _

theorem Renumbered.exec_decodeWord_alike (w : Word) :
    AnswersRenumbered n (exec (decodeWord w) s) (exec (decodeWord w) t) := by
  rw [exec_decodeWord, exec_decodeWord, h.cfg_eq]
  cases s.cfg.ftable.row (fcode w) with
  | unknown => exact h.after_warnUnknown.complete_alike (.ok unknownToken)
  | mapped col cat cf =>
    cases cat with
    | text => exact h.execText_alike col cf (payload w)
    | continuation => exact h.execText_alike col cf (payload w)
    | shortNumber => exact h.complete_alike (.ok (shortToken col (field27 w) (hexFlag w)))
    | longNumber => exact h.execLong_alike col (hexFlag w)

end

/-- A step of one machine is a step of the other, and nothing but the numbers tells them apart. -/
theorem Renumbered.step_alike {n : Nat} {s t : State} (h : Renumbered n s t) :
    AnswersRenumbered n (step s) (step t) := by
  intro s' hstep
  rcases step_cases hstep with ⟨hg, rfl⟩ | ⟨w, hg, hb, hr, hc, hw, hexec⟩ | ⟨hg, hb, hr, hc, rfl⟩
  · obtain ⟨rs, rfl, _⟩ := h
    refine ⟨_, step_of_idle (s := renumber n rs s) hg, [], startRun_renumber n rs s, ?_⟩
    rw [startRun_results]
  · have hrun := (h.after_setCur (s.cur + 4)).exec_decodeWord_alike w s' hexec
    obtain ⟨rs, rfl, _⟩ := h
    rw [step_of_word (s := renumber n rs s) hg hb hr hc hw]
    exact hrun
  · obtain ⟨rs, rfl, hrs⟩ := h
    refine ⟨_, step_at_end (s := renumber n rs s) hg hb hr hc, _, endBlock_renumber n rs s, ?_⟩
    rw [endBlock_results]
    exact map_snd_append_singleton hrs _ _ _

/-- Settles O53: setting `START` alone leaves the results as they are, numbers too. -/
theorem startOnlyNumbersResults : Obligations.StartOnlyNumbersResults := by
  intro s s' n hstep
  have hstart : Renumbered n s (s.setStart n) := ⟨s.results, rfl, rfl⟩
  obtain ⟨t', ht, rs, rfl, hrs⟩ := hstart.step_alike s' hstep
  exact ⟨_, ht, rfl, hrs⟩

end Sys2Proof.Machine

namespace Sys2Proof.Machine

/-! ### The raw tokens of a Block, unit by unit (40_fetch_dispatch R126) -/

section
variable {cfg : Config} {w : Word}

theorem rawTokens_of_unknown (hrow : cfg.ftable.row (fcode w) = .unknown) (off : Nat) (ws : List Word) :
    rawTokens cfg off (w :: ws) = (rawTokens cfg (off + 4) ws).map (unknownToken :: ·) := by
  rw [rawTokens, hrow]

theorem rawTokens_of_shortNumber {col : Colour} {cf : CaseFlag}
    (hrow : cfg.ftable.row (fcode w) = .mapped col .shortNumber cf) (off : Nat) (ws : List Word) :
    rawTokens cfg off (w :: ws) =
      (rawTokens cfg (off + 4) ws).map (shortToken col (field27 w) (hexFlag w) :: ·) := by
  rw [rawTokens, hrow]

theorem rawTokens_of_longNumber {col : Colour} {cf : CaseFlag}
    (hrow : cfg.ftable.row (fcode w) = .mapped col .longNumber cf) (off : Nat) (w2 : Word) (ws : List Word) :
    rawTokens cfg off (w :: w2 :: ws) =
      (rawTokens cfg (off + 8) ws).map (longToken col (hexFlag w) w2 :: ·) := by
  rw [rawTokens, hrow]

theorem rawTokens_of_last_longNumber {col : Colour} {cf : CaseFlag}
    (hrow : cfg.ftable.row (fcode w) = .mapped col .longNumber cf) (off : Nat) :
    rawTokens cfg off [w] = .ok [longToken col (hexFlag w) 0] := by
  rw [rawTokens, hrow]

/-- A text word's failure is the Block's. -/
theorem rawTokens_of_text {col : Colour} {cat : Category} {cf : CaseFlag}
    (hrow : cfg.ftable.row (fcode w) = .mapped col cat cf) (hcat : cat = .text ∨ cat = .continuation)
    (off : Nat) (ws : List Word) :
    rawTokens cfg off (w :: ws) = (textToken cfg.charset off col cf (payload w)).bind
      fun t => (rawTokens cfg (off + 4) ws).map (t :: ·) := by
  rcases hcat with rfl | rfl <;> simp only [rawTokens, hrow] <;>
    cases textToken cfg.charset off col cf (payload w) <;> rfl

end

theorem longToken_eq (col : Colour) (h : Bool) (w2 : Word) : longToken col h w2 = ⟨col, render h w2.toInt⟩ := by
  rw [longToken, tc_toNat (w := 32) (by decide)]

/-! ### Words still to be read -/

/-- From address `a` on the buffer holds the words `ws`. -/
def ReadsWords (b : Buf) : Nat → List Word → Prop
  | _, [] => True
  | a, w :: ws => b.word? a = some w ∧ ReadsWords b (a + 4) ws

/-- The machine is in a running Block, and `ws` are the words from its cursor to the end of the Block. -/
structure AtWords (s : State) (ws : List Word) : Prop where
  gst : s.gst = .busy
  blk : s.blk < s.buf.blocks
  st : s.st = .run
  cur : s.cur + 4 * ws.length = 1024
  reads : ReadsWords s.buf (1024 * s.blk + s.cur) ws

/-- The machine after a unit that ended at `c` with `n` warnings and merged `tok`. An abbreviation, so that the lemmas
about `merge` see through it. -/
abbrev afterUnit (tok : Token) (c n : Nat) (s : State) : State := merge tok ((s.setCur c).setWarn n)

/-- A step runs the first of the words to be read. -/
theorem AtWords.step_eq {s : State} {w : Word} {ws : List Word} (h : AtWords s (w :: ws)) :
    step s = exec (decodeWord w) (s.setCur (s.cur + 4)) := by
  have hcur := h.cur
  rw [List.length_cons] at hcur
  exact step_of_word h.gst h.blk h.st (by omega) h.reads.1

/-- After a unit that consumed all words but `rest`, those are to be read. -/
theorem AtWords.of_afterUnit {s : State} {ws rest : List Word} (h : AtWords s ws) {c : Nat}
    (hcur : c + 4 * rest.length = 1024) (hreads : ReadsWords s.buf (1024 * s.blk + c) rest) (tok : Token) (n : Nat) :
    AtWords (afterUnit tok c n s) rest where
  gst := by simpa using h.gst
  blk := by simpa using h.blk
  st := by simpa using h.st
  cur := by simpa using hcur
  reads := by simpa using hreads

/-- What the step over one unit does, next to what the raw tokens of the words are: it merges the first of them and the
others are those of the words that remain, or it takes their failure. -/
def UnitAgrees (s : State) (ws : List Word) : Prop :=
  (∃ tok c n rest, step s = .next (afterUnit tok c n s) ∧ rest.length < ws.length ∧
    AtWords (afterUnit tok c n s) rest ∧
    rawTokens s.cfg s.cur ws = (rawTokens s.cfg c rest).map (tok :: ·)) ∨
  (∃ e c, step s = .next (failBlock e (s.setCur c)) ∧ rawTokens s.cfg s.cur ws = .error e)

section
variable {s : State} {w : Word} {ws : List Word} (h : AtWords s (w :: ws))
include h

/-- A unit of one word that merges the first raw token agrees. -/
theorem AtWords.unitAgrees_of_merge {tok : Token} {n : Nat}
    (hstep : step s = .next (afterUnit tok (s.cur + 4) n s))
    (hraw : rawTokens s.cfg s.cur (w :: ws) = (rawTokens s.cfg (s.cur + 4) ws).map (tok :: ·)) :
    UnitAgrees s (w :: ws) := by
  have hcur := h.cur
  rw [List.length_cons] at hcur
  exact .inl ⟨tok, s.cur + 4, n, ws, hstep, by simp, h.of_afterUnit (by omega) h.reads.2 tok n, hraw⟩

theorem AtWords.unitAgrees_of_text {col : Colour} {cat : Category} {cf : CaseFlag}
    (hrow : s.cfg.ftable.row (fcode w) = .mapped col cat cf) (hcat : cat = .text ∨ cat = .continuation) :
    UnitAgrees s (w :: ws) := by
  have hstep : step s = complete (textToken s.cfg.charset s.cur col cf (payload w)) (s.setCur (s.cur + 4)) :=
    h.step_eq.trans (exec_decodeWord_of_text (s := s.setCur (s.cur + 4)) hrow hcat)
  have hraw := rawTokens_of_text hrow hcat s.cur ws
  cases htok : textToken s.cfg.charset s.cur col cf (payload w) with
  | ok tok =>
    rw [htok] at hstep hraw
    exact h.unitAgrees_of_merge (n := s.warn) hstep hraw
  | error e =>
    rw [htok] at hstep hraw
    exact .inr ⟨e, s.cur + 4, hstep, hraw⟩

theorem AtWords.unitAgrees_of_longNumber {col : Colour} {cf : CaseFlag}
    (hrow : s.cfg.ftable.row (fcode w) = .mapped col .longNumber cf) : UnitAgrees s (w :: ws) := by
  have hstep : step s = execLong col (hexFlag w) (s.setCur (s.cur + 4)) :=
    h.step_eq.trans (exec_decodeWord_of_longNumber (s := s.setCur (s.cur + 4)) hrow)
  have hcur := h.cur
  cases ws with
  | nil =>
    rw [List.length_singleton] at hcur
    rw [execLong_at_end (s := s.setCur (s.cur + 4)) (show 1024 ≤ s.cur + 4 by omega)] at hstep
    exact h.unitAgrees_of_merge (n := s.warn) hstep (rawTokens_of_last_longNumber hrow s.cur)
  | cons w2 rest =>
    obtain ⟨-, hw2, hrest⟩ := h.reads
    rw [List.length_cons, List.length_cons] at hcur
    rw [execLong_of_word (s := s.setCur (s.cur + 4)) (show s.cur + 4 < 1024 by omega) hw2, ← longToken_eq] at hstep
    exact .inl ⟨_, s.cur + 8, s.warn, rest, hstep, by simp, h.of_afterUnit (by omega) hrest _ _,
      rawTokens_of_longNumber hrow s.cur w2 rest⟩

/-- Every unit agrees, whatever its row. -/
theorem AtWords.unitAgrees : UnitAgrees s (w :: ws) := by
  cases hrow : s.cfg.ftable.row (fcode w) with
  | unknown =>
    exact h.unitAgrees_of_merge (n := s.warn + 1)
      (h.step_eq.trans (exec_decodeWord_of_unknown (s := s.setCur (s.cur + 4)) hrow))
      (rawTokens_of_unknown hrow s.cur ws)
  | mapped col cat cf =>
    cases cat with
    | text => exact h.unitAgrees_of_text hrow (.inl rfl)
    | continuation => exact h.unitAgrees_of_text hrow (.inr rfl)
    | shortNumber =>
      exact h.unitAgrees_of_merge (n := s.warn)
        (h.step_eq.trans (exec_decodeWord_of_shortNumber (s := s.setCur (s.cur + 4)) hrow))
        (rawTokens_of_shortNumber hrow s.cur ws)
    | longNumber => exact h.unitAgrees_of_longNumber hrow

end

/-! ### One Block -/

/-- The result of a Block whose remaining words have the raw tokens or the failure `r` (R237, R238). -/
def pendingResult (s : State) (r : Except HardFailure (List Token)) : DecodeResult :=
  match r with
  | .ok ts => .tokens (pendingTokens s ts)
  | .error e => .error e

/-- Merging the first raw token does not change the result. -/
theorem pendingResult_afterUnit (tok : Token) (c n : Nat) (s : State) (r : Except HardFailure (List Token)) :
    pendingResult (afterUnit tok c n s) r = pendingResult s (r.map (tok :: ·)) := by
  cases r with
  | error e => rfl
  | ok ts => exact congrArg DecodeResult.tokens (pendingTokens_merge tok ((s.setCur c).setWarn n) ts)

/-- `t` is a BUSY machine that has left the Block of `s` with the result `r`, before the next Block is entered. -/
structure LeftBlock (s : State) (r : DecodeResult) (t : State) : Prop where
  gst : t.gst = .busy
  input : KeepsInput s t
  blk : t.blk = s.blk + 1
  results : t.results = s.results ++ [(s.start + s.blk, r)]

/-- A run of `n` steps leaves the Block of `s` with the result `r`. -/
def LeavesBlock (s : State) (r : DecodeResult) (n : Nat) : Prop :=
  ∃ t, core.run n s = .next (enterBlock t) ∧ LeftBlock s r t

/-- A unit that merges a token does not change what the Block's result adds to. -/
theorem LeavesBlock.of_afterUnit {s : State} {tok : Token} {c n m : Nat} {r : DecodeResult}
    (hstep : step s = .next (afterUnit tok c n s)) (h : LeavesBlock (afterUnit tok c n s) r m) :
    LeavesBlock s r (m + 1) := by
  obtain ⟨t, hrun, hgst, hinput, hblk, hresults⟩ := h
  refine ⟨t, (run_succ hstep m).trans hrun, hgst, ?_, ?_, ?_⟩
  · simpa [KeepsInput] using hinput
  · simpa using hblk
  · simpa using hresults

/-- A step that commits the Block's result leaves the Block. -/
theorem LeavesBlock.of_commit {s u : State} {r : DecodeResult} (hstep : step s = .next (nextBlock (commit r u)))
    (hgst : u.gst = .busy) (hinput : KeepsInput s u) (hblk : u.blk = s.blk) (hresults : u.results = s.results) :
    LeavesBlock s r 1 := by
  obtain ⟨hbuf, hcfg, hstart⟩ := hinput
  refine ⟨(commit r u).setBlk (u.blk + 1), run_succ hstep 0, ?_, ?_, ?_, ?_⟩
  · simpa using hgst
  · simp [KeepsInput, hbuf, hcfg, hstart]
  · simp [hblk]
  · simp [hresults, hstart, hblk]

/-- A unit that fails leaves the Block at once. -/
theorem AtWords.leaves_of_fail {s : State} {ws : List Word} (h : AtWords s ws) {e : HardFailure} {c : Nat}
    (hstep : step s = .next (failBlock e (s.setCur c))) : LeavesBlock s (.error e) 1 :=
  .of_commit hstep (by simpa using h.gst) (by simp [KeepsInput]) (by simp) (by simp)

/-- With no word left the Block's result is the tokens after the flush. -/
theorem AtWords.leaves_at_end {s : State} (h : AtWords s []) :
    LeavesBlock s (.tokens (s.outbuf ++ s.wt.toList)) 1 := by
  have hcur : s.cur = 1024 := h.cur
  have hend := step_at_end h.gst h.blk h.st (by omega)
  rw [endBlock_eq] at hend
  exact .of_commit hend (by simpa using h.gst) (by simp [KeepsInput]) (by simp) (by simp)

/-- The Block is left within a step for each word and one more, with the result of the words' raw tokens. -/
theorem AtWords.leavesBlock {s : State} {ws : List Word} (h : AtWords s ws) :
    ∃ n, n ≤ ws.length + 1 ∧ LeavesBlock s (pendingResult s (rawTokens s.cfg s.cur ws)) n := by
  induction hlen : ws.length using Nat.strongRecOn generalizing s ws with
  | ind len ih =>
    subst hlen
    cases ws with
    | nil =>
      refine ⟨1, by simp, ?_⟩
      rw [rawTokens, pendingResult, pendingTokens_nil]
      exact h.leaves_at_end
    | cons w ws =>
      rcases h.unitAgrees with ⟨tok, c, n, rest, hstep, hshort, hrest, hraw⟩ | ⟨e, c, hstep, hraw⟩ <;> rw [hraw]
      · obtain ⟨m, hm, hleaves⟩ := ih _ hshort hrest rfl
        refine ⟨m + 1, by omega, .of_afterUnit hstep ?_⟩
        rwa [pendingResult_afterUnit, merge_cfg, merge_cur] at hleaves
      · exact ⟨1, by simp, h.leaves_of_fail hstep⟩

/-! ### Whole runs -/

theorem run_add {m : Nat} {s t : State} (h : core.run m s = .next t) (n : Nat) :
    core.run (m + n) s = core.run n t := by
  induction m generalizing s with
  | zero =>
    obtain rfl : s = t := Host.Outcome.next.inj h
    rw [Nat.zero_add]
  | succ m ih =>
    cases hs : core.step s with
    | next s' =>
      rw [run_succ hs] at h
      rw [Nat.add_right_comm, run_succ hs, ih h]
    | fault r => simp [Host.Core.run, hs] at h
    | refused r => simp [Host.Core.run, hs] at h

theorem Buf.get?_ofBytes_of_lt {bytes : List Byte} {a : Nat} (h : a < bytes.length) :
    (Buf.ofBytes bytes).get? a = some (byteAt bytes a) := by
  rw [Buf.get?_ofBytes, byteAt, List.getElem?_eq_getElem h, List.getD_eq_getElem _ _ h]

/-- The loaded buffer reads as the caller's words. -/
theorem Buf.word?_ofBytes {bytes : List Byte} {a : Nat} (h : a + 4 ≤ bytes.length) :
    (Buf.ofBytes bytes).word? a = some (wordAt bytes a) :=
  Buf.word?_of_get? (Buf.get?_ofBytes_of_lt (by omega)) (Buf.get?_ofBytes_of_lt (by omega))
    (Buf.get?_ofBytes_of_lt (by omega)) (Buf.get?_ofBytes_of_lt (by omega))

/-- The loaded buffer holds consecutive words of the caller's bytes. -/
theorem readsWords_ofBytes {bytes : List Byte} {a n : Nat} (h : a + 4 * n ≤ bytes.length) :
    ReadsWords (Buf.ofBytes bytes) a ((List.range n).map fun i => wordAt bytes (a + 4 * i)) := by
  induction n generalizing a with
  | zero => trivial
  | succ n ih =>
    have hnext : ((fun i => wordAt bytes (a + 4 * i)) ∘ Nat.succ) = fun i => wordAt bytes (a + 4 + 4 * i) := by
      funext i
      rw [Function.comp_apply, Nat.succ_eq_add_one, Nat.mul_succ, Nat.add_assoc, Nat.add_comm 4]
    rw [List.range_succ_eq_map, List.map_cons, List.map_map, hnext]
    exact ⟨Buf.word?_ofBytes (by omega), ih (by omega)⟩

/-- After the first `b` Blocks of a run, before the next is entered: the caller's input, and the results that the
decoder gives for those Blocks. -/
structure BlocksDone (bytes : List Byte) (start : Nat) (cfg : Config) (b : Nat) (s : State) : Prop where
  gst : s.gst = .busy
  buf_eq : s.buf = Buf.ofBytes bytes
  cfg_eq : s.cfg = cfg
  start_eq : s.start = start
  blk : s.blk = b
  results : s.results = decodeBuffer cfg start b bytes

theorem decodeBuffer_succ (cfg : Config) (start b : Nat) (bytes : List Byte) :
    decodeBuffer cfg start (b + 1) bytes =
      decodeBuffer cfg start b bytes ++ [(start + b, decodeBlock cfg (blockWords bytes b))] := by
  rw [decodeBuffer, List.range_succ, List.map_append]
  rfl

/-- Before the first word of a Block its pending result is what the decoder gives for its words. -/
theorem pendingResult_blockReset (s : State) (ws : List Word) :
    pendingResult (blockReset s) (rawTokens s.cfg 0 ws) = decodeBlock s.cfg ws := by
  unfold decodeBlock
  cases rawTokens s.cfg 0 ws with
  | error e => rfl
  | ok ts => exact congrArg DecodeResult.tokens (pendingTokens_of_empty rfl rfl ts)

section
variable {bytes : List Byte} {start k b : Nat} {cfg : Config} (hlen : bytes.length = 1024 * k)
include hlen

theorem blocks_ofBytes : (Buf.ofBytes bytes).blocks = k := by
  change bytes.length / 1024 = k
  omega

/-- The Block entered next is one of the buffer, and all its words are to be read. -/
theorem BlocksDone.atWords {s : State} (h : BlocksDone bytes start cfg b s) (hb : b < k) :
    AtWords (blockReset s) (blockWords bytes b) where
  gst := by rw [blockReset_gst, h.gst]
  blk := by simpa [h.blk, h.buf_eq, blocks_ofBytes hlen] using hb
  st := rfl
  cur := by simp [blockWords]
  reads := by
    have hreads := readsWords_ofBytes (bytes := bytes) (a := 1024 * b) (n := 256) (by omega)
    simpa [h.blk, h.buf_eq, blockWords] using hreads

theorem BlocksDone.enterBlock_eq {s : State} (h : BlocksDone bytes start cfg b s) :
    enterBlock s = if b < k then blockReset s else s.setGst .finished := by
  rw [enterBlock, h.blk, h.buf_eq, blocks_ofBytes hlen]

/-- The next Block is left within 257 steps, one for each word and one for the end (R244). -/
theorem BlocksDone.succ {s : State} (h : BlocksDone bytes start cfg b s) (hb : b < k) :
    ∃ n t, n ≤ 257 ∧ core.run n (enterBlock s) = .next (enterBlock t) ∧
      BlocksDone bytes start cfg (b + 1) t := by
  obtain ⟨n, hn, t, hrun, hgst, ⟨hbuf, hcfg, hstart⟩, hblk, hresults⟩ := (h.atWords hlen hb).leavesBlock
  have hbound : n ≤ 257 := by simpa [blockWords] using hn
  rw [h.enterBlock_eq hlen, if_pos hb]
  refine ⟨n, t, hbound, hrun, hgst, ?_, ?_, ?_, ?_, ?_⟩
  · rw [hbuf, blockReset_buf, h.buf_eq]
  · rw [hcfg, blockReset_cfg, h.cfg_eq]
  · rw [hstart, blockReset_start, h.start_eq]
  · rw [hblk, blockReset_blk, h.blk]
  · rw [hresults, blockReset_cfg, blockReset_cur, pendingResult_blockReset, decodeBuffer_succ, blockReset_results,
      h.results, blockReset_start, h.start_eq, blockReset_blk, h.blk, h.cfg_eq]

/-- The run comes past each of its Blocks. -/
theorem exists_run_blocksDone (s : State) (hb : b ≤ k) :
    ∃ n t, n ≤ 257 * b + 1 ∧ core.run n (load bytes start cfg s) = .next (enterBlock t) ∧
      BlocksDone bytes start cfg b t := by
  induction b with
  | zero =>
    have haligned : (load bytes start cfg s).buf.len % 1024 = 0 := by
      change bytes.length % 1024 = 0
      omega
    have hstart := step_load bytes start cfg s
    rw [startRun_of_blocks haligned] at hstart
    exact ⟨1, _, le_rfl, run_succ hstart 0, rfl, rfl, rfl, rfl, rfl, rfl⟩
  | succ b ih =>
    obtain ⟨n, t, hn, hrun, hdone⟩ := ih (by omega)
    obtain ⟨m, u, hm, hrun', hdone'⟩ := hdone.succ hlen hb
    exact ⟨n + m, u, by omega, (run_add hrun m).trans hrun', hdone'⟩

/-- The whole run: after its last Block it is over, with the decoder's results. -/
theorem exists_run_finished (start : Nat) (cfg : Config) (s : State) :
    ∃ n t, n ≤ 257 * k + 1 ∧ core.run n (load bytes start cfg s) = .next t ∧
      t.gst = .finished ∧ t.results = decodeBuffer cfg start k bytes := by
  obtain ⟨n, t, hn, hrun, hdone⟩ := exists_run_blocksDone (start := start) (cfg := cfg) hlen s le_rfl
  rw [hdone.enterBlock_eq hlen, if_neg (lt_irrefl k)] at hrun
  exact ⟨n, t.setGst .finished, hn, hrun, rfl, hdone.results⟩

end

/-- Settles O50: the decoder gives one result for each Block, numbered in order. -/
theorem runYieldsOneResultPerBlock : Obligations.RunYieldsOneResultPerBlock := by
  intro bytes start k cfg s hlen
  obtain ⟨n, t, hn, hrun, hgst, hresults⟩ := exists_run_finished hlen start cfg s
  refine ⟨n, t, hn, hrun, hgst, ?_, ?_⟩ <;> rw [hresults, decodeBuffer]
  · rw [List.length_map, List.length_range]
  · rw [List.map_map]
    rfl

/-- Settles O51: unit by unit the machine's pending result is the decoder's, so each Block is left with it. -/
theorem runMatchesDecoder : Obligations.RunMatchesDecoder := by
  intro bytes start k cfg s hlen
  obtain ⟨n, t, _, hrun, hgst, hresults⟩ := exists_run_finished hlen start cfg s
  exact ⟨n, t, hrun, hgst, hresults⟩

end Sys2Proof.Machine

/-! ## 70_reset_and_hazards: the reset of a Block, and the all-zero word -/

namespace Sys2Proof.Machine

/-! ### Block reset (R310) -/

/-- The registers of a Block before its first word, as its reset writes them. -/
def AtBlockStart (s : State) : Prop :=
  s.cur = 0 ∧ s.wt = none ∧ s.outbuf = [] ∧ s.warn = 0 ∧ s.st = .run

/-- Where the run goes on after a Block is entered, that Block was reset. -/
theorem atBlockStart_enterBlock {s : State} (h : (enterBlock s).gst = .busy) : AtBlockStart (enterBlock s) := by
  rcases enterBlock_cases s with ⟨_, he⟩ | ⟨_, he⟩ <;> rw [he] at h ⊢
  · exact ⟨rfl, rfl, rfl, rfl, rfl⟩
  · simp at h

/-- A run that starts enters its first Block. -/
theorem atBlockStart_startRun {s : State} (h : (startRun s).gst = .busy) : AtBlockStart (startRun s) := by
  by_cases hlen : s.buf.len % 1024 = 0
  · rw [startRun_of_blocks hlen] at h ⊢
    exact atBlockStart_enterBlock h
  · simp [startRun_of_badLength hlen] at h

/-- An instruction that leaves its Block took a failure, and so entered the next one. -/
theorem atBlockStart_of_exec {i : Instr} {s t : State} (h : exec i s = .next t) (hblk : t.blk ≠ s.blk)
    (hg : t.gst = .busy) : AtBlockStart t := by
  rw [exec_eq_dispatch] at h
  rcases dispatch_cases h with ⟨tok, _, rfl⟩ | ⟨_, _, e, _, rfl⟩
  · simp [unitEnd] at hblk
  · exact atBlockStart_enterBlock hg

/-- Settles O41: a Block is entered at the start of a run, by a failed unit and at the end of the Block before. -/
theorem blockStartsReset : Obligations.BlockStartsReset := by
  intro s t hstep hg henter
  rcases step_cases hstep with ⟨_, rfl⟩ | ⟨w, hbusy, _, _, _, _, hexec⟩ | ⟨_, _, _, _, rfl⟩
  · exact atBlockStart_startRun hg
  · have hblk : t.blk ≠ s.blk := henter.resolve_left (by simp [hbusy])
    exact atBlockStart_of_exec hexec hblk hg
  · exact atBlockStart_enterBlock hg

/-! ### The all-zero word (R319) -/

/-- A payload of zeros is seven codes 0, and the text of seven spaces is empty. -/
theorem unpack_zero {cs : CharSet} (hspace : cs.char? 0 = some ' ') (offset : Nat) : unpack cs offset 0 = .ok [] := by
  have hcodes : (codesOf 0).map PackedCode.code = List.replicate 7 0 :=
    codesFrom_zero_fill (fuel := 14) (pos := 0) (by decide) rfl
  refine definedCodesGiveText cs offset 0 (List.replicate 7 ' ') ?_
  calc (codesOf 0).map (fun c => cs.char? c.code)
      = ((codesOf 0).map PackedCode.code).map cs.char? := by rw [List.map_map]; rfl
    _ = (List.replicate 7 ' ').map some := by rw [hcodes, List.map_replicate, hspace, List.map_replicate]

/-- A continuation without text leaves the working token as it is. -/
theorem merge_empty_cont {s : State} {w : Token} (hw : s.wt = some w) : merge ⟨.cont, []⟩ s = s := by
  rw [merge_of_cont hw rfl, List.append_nil, ← hw]
  rfl

/-- Settles O36: the word is CONT.0 with a payload of zeros, whose text is empty. -/
theorem zeroWordChangesNothing : Obligations.ZeroWordChangesNothing := by
  intro s w hspace hw
  obtain ⟨hcont, _, _⟩ := fixedTextWordsComplete s 0 [] (unpack_zero hspace _)
  rwa [merge_empty_cont hw] at hcont

end Sys2Proof.Machine
